-- ==== Sys2Proof/Config.lean ====
section
/-! DEFINITION. The hardware's parameters (rule R4 of 00_scope.md).

Every parameter of R4 is a field of `Config` with the source's value as its default (U18 of
93_implementation_defined.md); `Config.legal` says which values R4 allows. State carries one `Config`,
which no step changes (log 1), so that every claim covers every legal parameter set.
The machine has no value its spec leaves free after an instruction, so there is no opaque constant. -/

namespace Sys2Proof

/-- The parameters of R4, with the source's values as defaults. -/
structure Config where
  /-- `RXCAP`: capacity of the receive buffer and of the snapshot in bytes. -/
  rxCap    : Nat  := 255
  /-- `RX_OVF`: INGEST clears the buffer first when `rx_len` is above it. -/
  rxOvf    : Nat  := 254
  /-- `MINCNT`: a frame is complete only when `rx_len` is above it. -/
  minCnt   : Nat  := 4
  /-- `T_GAP`, milliseconds: inter-byte silence that clears a partial frame at the next byte. -/
  tGap     : Nat  := 8
  /-- `T_IDLE`, milliseconds: bus silence that lets a staged frame flush. -/
  tIdle    : Nat  := 32
  /-- `TXCAP`: capacity of the transmit buffer in bytes. -/
  txCap    : Nat  := 16
  /-- `TSW`: width in bits of a timestamp. -/
  tsw      : Nat  := 32
  /-- `PB_STRICT`: false keeps the original payload bound of MPAY, true selects the corrected one. -/
  pbStrict : Bool := false
  /-- `MSG_SLOTS`: number of message snapshots the block holds. Its one legal value, 1, is why State has
  one `msg_buf`. -/
  msgSlots : Nat  := 1
  deriving DecidableEq, Repr

/-- The legal ranges of R4: `RXCAP`, `MINCNT` and `MSG_SLOTS` are fixed, `RX_OVF` must equal `RXCAP - 1`,
`TXCAP` is 4 to 255, `TSW` 8 or more. `T_GAP` and `T_IDLE` are any number of milliseconds and `PB_STRICT`
either value. -/
abbrev Config.legal (c : Config) : Prop :=
  c.rxCap = 255 ∧ c.rxOvf + 1 = c.rxCap ∧ c.minCnt = 4 ∧ c.msgSlots = 1 ∧
    4 ≤ c.txCap ∧ c.txCap ≤ 255 ∧ 8 ≤ c.tsw

/-- The number of values a timestamp of `TSW` bits can hold (R7). -/
abbrev Config.timeRange (c : Config) : Nat := 2 ^ c.tsw

end Sys2Proof
end

