-- ==== Sys2Proof/Word.lean ====
section
/-! DEFINITION. The words of the IBUSTRX core: a byte and the command word (rules R5, R49). -/

namespace Sys2Proof

/-- A byte, an unsigned value 0 to 255 (R5). Every stored quantity of a buffer is one byte (R31). -/
abbrev Byte := BitVec 8

/-- The command word `cmd`, one 32-bit scalar presented whole on the command port (R31, R49). -/
abbrev CmdWord := BitVec 32

end Sys2Proof
end

