-- ==== Sys2Proof/Machine/State.lean ====
section
/-! DEFINITION. The state of the machine (rules R10, R30 of 10_state.md and 20_memory.md), the reasons a
step can stop, and the state after reset (R115 of 70_reset_and_hazards.md). -/

namespace Sys2Proof.Machine

/-- A byte buffer: the bytes written since reset, as (index, byte) pairs with strictly rising indices.
An index that is not listed has no value: reading it faults (R115, U9; log 7). -/
abbrev Memory := List Host.Cell

/-- The canonical form of a buffer of `cap` bytes: indices strictly rising, all inside the buffer. -/
abbrev Memory.wf (cap : Nat) (m : Memory) : Prop :=
  m.Pairwise (fun x y => x.1 < y.1) ∧ ∀ c ∈ m, c.1 < cap

/-- The three internal buffers (R30). -/
inductive Space where
  /-- `rx_buf` (R11). -/
  | rxBuf
  /-- `tx_buf` (R16). -/
  | txBuf
  /-- `msg_buf` (R22). -/
  | msgBuf
  deriving DecidableEq, Repr

/-- One action of an agent outside the core, in the one total order of R41. -/
inductive Input where
  /-- The host presents a command word on the command port (R48). -/
  | cmd (w : CmdWord)
  /-- The host presents a data byte of STAGE on the command port (R53). -/
  | data (b : Byte)
  /-- The clock input takes the value `t` (R7, R9). -/
  | clock (t : Nat)
  /-- The transport appends a byte it has received to the tail of `Q_rx` (R37). -/
  | receive (b : Byte)
  /-- The transport removes a byte from the head of `Q_tx` as it sends it (R38). -/
  | send
  /-- The core's reset is released (R115, R116). -/
  | reset
  deriving DecidableEq, Repr

/-- The response of an operation (R51). -/
structure Response where
  /-- 1: performed; 0: refused and no state changed. -/
  ok  : Bool
  /-- The refusal reason of R100; 0 when performed. -/
  ref : BitVec 2
  /-- The operation's result; 0 when it has none or was refused. -/
  val : Byte
  /-- The event vector of R101; 0 when refused. -/
  ev  : BitVec 8
  deriving DecidableEq, Repr

/-- Why the machine stops with a fault. No state that satisfies the invariant of Safety.lean reaches one:
they mark an error of the spec or of the model (R35, U9). -/
inductive Fault where
  /-- An operation formed an index outside its buffer (R35). Raised by every buffer access. Safe. -/
  | indexOutOfRange (sp : Space) (i : Nat)
  /-- An operation read a byte at or above the length register of its buffer (R11, U9). Raised by every
  buffer read. Safe. -/
  | beyondLength (sp : Space) (i : Nat)
  /-- An operation read a byte nothing has written since reset (U9, R26 I7). Raised by every buffer
  read. Safe. -/
  | unwrittenByte (sp : Space) (i : Nat)
  deriving DecidableEq, Repr

/-- Why a step has no meaning. The refusals the spec itself defines (R100) are not here: they are
responses with `ok = 0`, after which the machine goes on (log 5). -/
inductive Refusal where
  /-- The instruction has no meaning yet. Raised by a rejected arm of `exec`. Safe. -/
  | notModelled (mnemonic : String)
  /-- A STAGE word is not followed by its `n` data bytes, so it is not a request (R48, R53; log 4).
  Raised by the fetch of a request. Safe. -/
  | incompleteRequest
  /-- A data byte stands where a command word must (R53; log 4). Raised by the step. Safe. -/
  | strayData
  deriving DecidableEq, Repr

/-- Everything the spec gives the machine, with the spec's name of each element. -/
structure State where
  /-- `rx_buf`, the receive buffer (R11). -/
  rxBuf     : Memory
  /-- `rx_len`, the number of bytes accumulated (R12). -/
  rxLen     : Nat
  /-- `rx_pending`, the receive side's frame-pending flag (R13). -/
  rxPending : Bool
  /-- `rx_ts`, the timestamp of the last accepted byte or clear (R14). -/
  rxTs      : Nat
  /-- `echo_rem`, the echo bytes still expected (R15). -/
  echoRem   : Nat
  /-- `tx_buf`, the transmit buffer (R16). -/
  txBuf     : Memory
  /-- `tx_len`, the number of bytes of the staged frame (R18). -/
  txLen     : Nat
  /-- `tx_pending`, set by staging and cleared by the flush (R19). -/
  txPending : Bool
  /-- `msg_buf`, the message snapshot (R22). -/
  msgBuf    : Memory
  /-- `msg_len`, the number of bytes of the snapshot (R22). -/
  msgLen    : Nat
  /-- `msg_valid`, whether a snapshot exists (R22). -/
  msgValid  : Bool
  /-- `Q_rx`, the transport's queue of received bytes, oldest first (R37). -/
  qRx       : List Byte
  /-- `Q_tx`, the bytes the core has written and the transport has not sent, oldest first (R38). -/
  qTx       : List Byte
  /-- `now`, the clock input port (R7, R48). -/
  now       : Nat
  /-- The response port: the answer to the last request, none before the first (R48, R51; log 6). -/
  response  : Option Response
  /-- The actions of the outside world still to come, oldest first (R41; log 2). -/
  inputs    : List Input
  /-- The hardware's parameters (R4; log 1). -/
  cfg       : Config
  deriving DecidableEq, Repr

/-- The state after reset (R115) of a core with parameters `cfg`, `now0` being the clock's value when
reset is released. The queues of the transport are empty and nothing has been issued yet (log 9). -/
def State.resetAt (cfg : Config) (now0 : Nat) : State where
  rxBuf := []
  rxLen := 0
  rxPending := false
  rxTs := now0 % cfg.timeRange
  echoRem := 0
  txBuf := []
  txLen := 0
  txPending := false
  msgBuf := []
  msgLen := 0
  msgValid := false
  qRx := []
  qTx := []
  now := now0 % cfg.timeRange
  response := none
  inputs := []
  cfg := cfg

/-- The state after reset with the default parameters of R4 and, DESIGN CHOICE (log 8), a clock that
reads 0 when reset is released. -/
def State.reset : State := State.resetAt {} 0

end Sys2Proof.Machine
end

