-- ==== Sys2Proof/Machine/Operands.lean ====
section
/-! DEFINITION. The layout of a frame and its checksum (rules R33, R45 to R47): the values STAGE builds
and the indices the receive side and the message view read. -/

namespace Sys2Proof.Machine

/-- Index of the source module id in a frame (R33). -/
abbrev srcIdx : Nat := 0

/-- Index of the declared length (R33). -/
abbrev lenIdx : Nat := 1

/-- Index of the destination module id (R33). -/
abbrev dstIdx : Nat := 2

/-- Index of payload offset `i` (R33). -/
abbrev payIdx (i : Nat) : Nat := 3 + i

/-- Index of the checksum of a frame of declared length `len` (R33, R45). -/
abbrev cksIdx (len : Nat) : Nat := len + 1

/-- `XOR(b_0, ..., b_k)`, `0x00` of no bytes (R5, R47). -/
def xorAll : List Byte → Byte
  | [] => 0
  | b :: bs => b ^^^ xorAll bs

/-- The declared length of a frame with `p` payload bytes: `p + 2` (R46). -/
def declaredLength (p : Nat) : Byte := BitVec.ofNat 8 (p + 2)

/-- A frame without its checksum: source, declared length, destination, payload (R45). -/
def frameBody (src dst : Byte) (data : List Byte) : List Byte :=
  src :: declaredLength data.length :: dst :: data

/-- The whole frame STAGE builds: the body and the XOR of all of it (R47, R75). -/
def buildFrame (src dst : Byte) (data : List Byte) : List Byte :=
  frameBody src dst data ++ [xorAll (frameBody src dst data)]

/-- The bytes a frame of `n` payload bytes takes: `n + 4` (R46, R75). -/
def frameSize (n : Nat) : Nat := n + 4

/-- MPAY's bound test (R88) over the integers: `i <= L - 2`, or `i <= L - 3` when `PB_STRICT` is 1. -/
def payInBounds (strict : Bool) (len i : Nat) : Bool :=
  if strict then decide (i + 3 ≤ len) else decide (i + 2 ≤ len)

end Sys2Proof.Machine
end

