-- ==== Sys2Proof/Machine/Ops.lean ====
section
/-! DEFINITION. The named operations over buffers, the clock and the response port.

The core has no trap to take and none to return from (R95, R104, R105). What a processor's manual would
call exception entry is here `clearRx`, the discard of R23 and R104, and `refuse`, the refusal of R100;
after both the machine goes on by itself, so there is no return. -/

namespace Sys2Proof.Machine

/-- The byte listed at index `i`, if any. -/
def Memory.get : Memory → Nat → Option Byte
  | [], _ => none
  | (a, v) :: rest, i => if i = a then some v else Memory.get rest i

/-- The buffer with `v` at index `i`, in canonical form. -/
def Memory.set : Memory → Nat → Byte → Memory
  | [], i, v => [(i, v)]
  | (a, w) :: rest, i, v =>
    if i < a then (i, v) :: (a, w) :: rest
    else if i = a then (i, v) :: rest
    else (a, w) :: Memory.set rest i v

/-- The capacity of a buffer in bytes (R10, R30). -/
def State.capacity (s : State) : Space → Nat
  | .rxBuf => s.cfg.rxCap
  | .txBuf => s.cfg.txCap
  | .msgBuf => s.cfg.rxCap

/-- The value of a buffer's length register (R12, R18, R22). The bytes at and above it have no value for a
reader (R11, U9). -/
def State.extent (s : State) : Space → Nat
  | .rxBuf => s.rxLen
  | .txBuf => s.txLen
  | .msgBuf => s.msgLen

/-- The contents of a buffer. -/
def State.mem (s : State) : Space → Memory
  | .rxBuf => s.rxBuf
  | .txBuf => s.txBuf
  | .msgBuf => s.msgBuf

/-- The byte stored at one index of one buffer; none where nothing has been written since reset. It is what
a write leaves there; what an operation may read is `readByte`. -/
def State.byteAt (s : State) (sp : Space) (i : Nat) : Option Byte := (s.mem sp).get i

/-- The state with the contents of one buffer replaced. -/
def State.setMem (s : State) (m : Memory) : Space → State
  | .rxBuf => { s with rxBuf := m }
  | .txBuf => { s with txBuf := m }
  | .msgBuf => { s with msgBuf := m }

/-- Bounds-checked read of one byte (R32, R35). A byte at or above the buffer's length register has no
value, whether or not something was stored there, nor has a byte nothing has written since reset: reading
either faults (R11, U9). -/
def readByte (sp : Space) (i : Nat) (s : State) : Except Fault Byte :=
  if i < s.capacity sp then
    if i < s.extent sp then
      match s.byteAt sp i with
      | some v => .ok v
      | none => .error (.unwrittenByte sp i)
    else .error (.beyondLength sp i)
  else .error (.indexOutOfRange sp i)

/-- `buf[i .. i + n - 1]`, in index order (R6, R31). -/
def readBytes (sp : Space) (s : State) : Nat → Nat → Except Fault (List Byte)
  | _, 0 => .ok []
  | i, n + 1 =>
    match readByte sp i s with
    | .error f => .error f
    | .ok b =>
      match readBytes sp s (i + 1) n with
      | .error f => .error f
      | .ok bs => .ok (b :: bs)

/-- Bounds-checked write of one byte (R32, R35). -/
def writeByte (sp : Space) (i : Nat) (v : Byte) (s : State) : Except Fault State :=
  if i < s.capacity sp then .ok (s.setMem ((s.mem sp).set i v) sp)
  else .error (.indexOutOfRange sp i)

/-- `buf[i ..] <- bs`, in index order (R6, R31). -/
def writeBytes (sp : Space) : Nat → List Byte → State → Except Fault State
  | _, [], s => .ok s
  | i, b :: bs, s =>
    match writeByte sp i b s with
    | .error f => .error f
    | .ok s' => writeBytes sp (i + 1) bs s'

/-- `Elapsed(now, t) = (now - t) mod 2^TSW` (R7). -/
def elapsed (c : Config) (now t : Nat) : Nat :=
  (now + (c.timeRange - t % c.timeRange)) % c.timeRange

/-- The gap test `Elapsed(now, rx_ts) >= T_GAP` (R7, R108). -/
def State.gapExpired (s : State) : Bool := decide (s.cfg.tGap ≤ elapsed s.cfg s.now s.rxTs)

/-- The idle test `Elapsed(now, t_last) >= T_IDLE` (R7, R76, R108). -/
def State.idleSince (s : State) (tLast : Nat) : Bool :=
  decide (s.cfg.tIdle ≤ elapsed s.cfg s.now tLast)

/-- `ClearRx(now)` (R23): what every discard is (R104). It touches no buffer byte, not `echo_rem`, not
the transmit side, not the snapshot. -/
def clearRx (s : State) : State := { s with rxLen := 0, rxPending := false, rxTs := s.now }

/-- The response of an operation that was performed (R51). -/
def respond (val : Byte) (ev : BitVec 8) (s : State) : State :=
  { s with response := some { ok := true, ref := 0, val := val, ev := ev } }

/-- `REF_BADOP` (R100). -/
def refBadOp : BitVec 2 := 1

/-- `REF_STAGE_LEN` (R100). -/
def refStageLen : BitVec 2 := 2

/-- `REF_NOMSG` (R100). -/
def refNoMsg : BitVec 2 := 3

/-- `refuse <Reason>` (R6, R100): no state element changes and the response carries `ok = 0`, the reason
and zeros. The next operation proceeds normally (log 5). -/
def refuse (reason : BitVec 2) (s : State) : State :=
  { s with response := some { ok := false, ref := reason, val := 0, ev := 0 } }

/-- A truth value as the result byte 1 or 0 (R51). -/
def bitByte (b : Bool) : Byte := if b then 1 else 0

end Sys2Proof.Machine
end

