-- ==== Sys2Proof/Machine/Flags.lean ====
section
/-! DEFINITION. The derived predicates `Complete`, `XorOk`, `Valid` (R20, R21), the derived machine
states (R24), the status outputs and transport port signals (R25, R36) and the event vector (R101). -/

namespace Sys2Proof.Machine

/-- `Complete` (R20): `rx_len > MINCNT` and `rx_len = rx_buf[1] + 2` over the integers. `rx_buf[1]` is
read only when `rx_len > MINCNT`. -/
def frameComplete (s : State) : Except Fault Bool :=
  if s.cfg.minCnt < s.rxLen then
    match readByte .rxBuf lenIdx s with
    | .error f => .error f
    | .ok len => .ok (decide (s.rxLen = len.toNat + 2))
  else .ok false

/-- `XorOk` (R21): the XOR of bytes 0 to `L` against byte `L + 1`, `L` being `rx_buf[1]`. Evaluated only
under `Complete`. -/
def xorOk (s : State) : Except Fault Bool :=
  match readByte .rxBuf lenIdx s with
  | .error f => .error f
  | .ok len =>
    match readBytes .rxBuf s 0 (len.toNat + 1) with
    | .error f => .error f
    | .ok bs =>
      match readByte .rxBuf (cksIdx len.toNat) s with
      | .error f => .error f
      | .ok c => .ok (xorAll bs == c)

/-- `Valid = Complete and XorOk` (R21); outside `Complete` the XOR is not evaluated (R63). -/
def frameValid (s : State) : Except Fault Bool :=
  match frameComplete s with
  | .error f => .error f
  | .ok false => .ok false
  | .ok true => xorOk s

/-- The states of the receive machine (R24). -/
inductive RxPhase where
  | empty
  | accumulating
  | completeValid
  | completeInvalid
  deriving DecidableEq, Repr

/-- The receive machine's state, read off the state (R24). -/
def rxPhase (s : State) : Except Fault RxPhase :=
  match frameComplete s with
  | .error f => .error f
  | .ok false => .ok (if s.rxLen = 0 then .empty else .accumulating)
  | .ok true =>
    match xorOk s with
    | .error f => .error f
    | .ok true => .ok .completeValid
    | .ok false => .ok .completeInvalid

/-- The states of the transmit path (R24). -/
inductive TxPhase where
  | idle
  | staged
  | echo
  deriving DecidableEq, Repr

/-- The transmit path's state, read off the state (R24). -/
def txPhase (s : State) : TxPhase :=
  if s.txPending then .staged else if s.echoRem = 0 then .idle else .echo

/-- Status output `frame_ready = rx_pending` (R25). -/
def State.frameReady (s : State) : Bool := s.rxPending

/-- Status output `tx_pending`, the flag itself (R25). -/
def State.txPendingOut (s : State) : Bool := s.txPending

/-- Status output `echo_active = (echo_rem > 0)` (R25). -/
def State.echoActive (s : State) : Bool := decide (0 < s.echoRem)

/-- Transport port `rx_avail`: 1 when `Q_rx` is not empty (R36). -/
def State.rxAvail (s : State) : Bool := !s.qRx.isEmpty

/-- Transport port `rx_data`: the byte at the head of `Q_rx` (R36). -/
def State.rxData (s : State) : Option Byte := s.qRx.head?

/-- `EV_RX_OVERFLOW`, bit 0 (R101). -/
def evRxOverflow : BitVec 8 := 0x01

/-- `EV_RX_TIMEOUT`, bit 1 (R101). -/
def evRxTimeout : BitVec 8 := 0x02

/-- `EV_RX_CKFAIL`, bit 2 (R101). -/
def evRxCkFail : BitVec 8 := 0x04

/-- `EV_ECHO_DROP`, bit 3 (R101). -/
def evEchoDrop : BitVec 8 := 0x08

/-- `EV_RX_BYTE`, bit 4 (R101). -/
def evRxByte : BitVec 8 := 0x10

/-- `EV_TX_FLUSH`, bit 5 (R101). -/
def evTxFlush : BitVec 8 := 0x20

/-- `EV_MSG`, bit 6 (R101). -/
def evMsg : BitVec 8 := 0x40

/-- An event bit when its condition holds, no bit otherwise. -/
def evIf (c : Bool) (e : BitVec 8) : BitVec 8 := if c then e else 0

/-- INGEST's clear on overflow: `rx_len > RX_OVF` (R60, R98). -/
def State.rxFull (s : State) : Bool := decide (s.cfg.rxOvf < s.rxLen)

/-- The events of an INGEST, from the state before it (R60, R101): the timeout is reported only when a
byte was discarded. -/
def ingestEvents (s : State) : BitVec 8 :=
  evIf s.rxFull evRxOverflow ||| evIf (s.gapExpired && decide (0 < s.rxLen)) evRxTimeout ||| evRxByte

end Sys2Proof.Machine
end

