-- ==== Sys2Proof/Machine/MessageView.lean ====
section
/-! DEFINITION. The message view operations MSRC, MLEN, MDST, MPAY (rules R85 to R89 of
42_message_view.md). -/

namespace Sys2Proof.Machine

/-- A view of the snapshot (R85): refused with `REF_NOMSG` when there is none, else the byte. -/
def viewMessage (view : Except Fault Byte) (s : State) : Host.Outcome State Fault Refusal :=
  if s.msgValid then
    match view with
    | .error f => .fault f
    | .ok v => .next (respond v 0 s)
  else .next (refuse refNoMsg s)

/-- MPAY's byte (R88): the byte at offset `i` within the bound, else the sentinel `0x00`. -/
def payloadByte (i : Byte) (s : State) : Except Fault Byte :=
  match readByte .msgBuf lenIdx s with
  | .error f => .error f
  | .ok len =>
    if payInBounds s.cfg.pbStrict len.toNat i.toNat then readByte .msgBuf (payIdx i.toNat) s else .ok 0

/-- MSRC (R85): the source module id. -/
def execMsrc (s : State) : Host.Outcome State Fault Refusal := viewMessage (readByte .msgBuf srcIdx s) s

/-- MLEN (R86): the declared length byte. -/
def execMlen (s : State) : Host.Outcome State Fault Refusal := viewMessage (readByte .msgBuf lenIdx s) s

/-- MDST (R87): the destination module id. -/
def execMdst (s : State) : Host.Outcome State Fault Refusal := viewMessage (readByte .msgBuf dstIdx s) s

/-- MPAY (R88): one payload byte by offset. -/
def execMpay (i : Byte) (s : State) : Host.Outcome State Fault Refusal := viewMessage (payloadByte i s) s

end Sys2Proof.Machine
end

