-- ==== Sys2Proof/Machine/Transmit.lean ====
section
/-! DEFINITION. The transmit operations STAGE, TRYFLUSH, TXPEND and the flush step that POLL shares
(rules R75 to R79 of 41_transmit.md). -/

namespace Sys2Proof.Machine

/-- The buffer and registers STAGE writes for a frame that fits (R75). -/
def stageFrame (src dst : Byte) (data : List Byte) (s : State) : Except Fault State :=
  match writeBytes .txBuf 0 (buildFrame src dst data) s with
  | .error f => .error f
  | .ok s' => .ok { s' with txLen := frameSize data.length, txPending := true }

/-- STAGE (R75): refused with `REF_STAGE_LEN` when `n + 4 > TXCAP`, else the frame is built and marked
pending, whether or not one was pending. The data bytes have left the port either way (R53). -/
def execStage (src dst : Byte) (data : List Byte) (s : State) : Host.Outcome State Fault Refusal :=
  if s.cfg.txCap < frameSize data.length then .next (refuse refStageLen s)
  else
    match stageFrame src dst data s with
    | .error f => .fault f
    | .ok s' => .next (respond 0 0 s')

/-- `FlushStep(now, t_last)` (R76), with whether it fired: the whole staged frame goes to `Q_tx` in one
pass, `tx_pending` is cleared and `echo_rem` is set, not added to. `tx_buf` and `tx_len` stay. -/
def flushStep (tLast : Nat) (s : State) : Except Fault (State × Bool) :=
  if s.txPending && s.idleSince tLast then
    match readBytes .txBuf s 0 s.txLen with
    | .error f => .error f
    | .ok bs => .ok ({ s with qTx := s.qTx ++ bs, txPending := false, echoRem := s.txLen }, true)
  else .ok (s, false)

/-- TRYFLUSH (R76): the flush step on the receiver's `rx_ts`; `val` says whether it fired. -/
def execTryflush (s : State) : Host.Outcome State Fault Refusal :=
  match flushStep s.rxTs s with
  | .error f => .fault f
  | .ok (s', fired) => .next (respond (bitByte fired) (evIf fired evTxFlush) s')

/-- TXPEND (R77): the pending flag. -/
def execTxpend (s : State) : Host.Outcome State Fault Refusal :=
  .next (respond (bitByte s.txPending) 0 s)

end Sys2Proof.Machine
end

