-- ==== Sys2Proof/Machine/Receive.lean ====
section
/-! DEFINITION. The receive operations INGEST, POLL, HASFRAME, CKVALID, TAKE (rules R60 to R66 of
40_receive.md). -/

namespace Sys2Proof.Machine

/-- The clear at the start of an INGEST: on overflow or on a gap (R60, R98, R99, R103). -/
def clearIfStale (s : State) : State := if s.rxFull || s.gapExpired then clearRx s else s

/-- The append of INGEST: the byte at index `rx_len`, one more byte, stamped `now` (R60). -/
def appendRx (b : Byte) (s : State) : Except Fault State :=
  match writeByte .rxBuf s.rxLen b s with
  | .error f => .error f
  | .ok s' => .ok { s' with rxLen := s.rxLen + 1, rxTs := s.now }

/-- INGEST's effect on the state (R60): clear tests on the state before, append, then `rx_pending` is
`Valid` of the buffer after. -/
def ingestByte (b : Byte) (s : State) : Except Fault State :=
  match appendRx b (clearIfStale s) with
  | .error f => .error f
  | .ok s' =>
    match frameValid s' with
    | .error f => .error f
    | .ok v => .ok { s' with rxPending := v }

/-- INGEST (R60). -/
def execIngest (b : Byte) (s : State) : Host.Outcome State Fault Refusal :=
  match ingestByte b s with
  | .error f => .fault f
  | .ok s' => .next (respond (bitByte s'.rxPending) (ingestEvents s) s')

/-- POLL's byte step (R61), with its events: the head of `Q_rx` leaves the queue and is discarded as echo
when `echo_rem > 0` and nothing is pending, else ingested; nothing happens when `Q_rx` is empty. -/
def pollByte (s : State) : Except Fault (State × BitVec 8) :=
  match s.qRx with
  | [] => .ok (s, 0)
  | b :: rest =>
    if s.echoActive && !s.txPending then
      .ok ({ s with qRx := rest, echoRem := s.echoRem - 1 }, evEchoDrop)
    else
      match ingestByte b { s with qRx := rest } with
      | .error f => .error f
      | .ok s' => .ok (s', ingestEvents s)

/-- POLL (R61): the byte step, then the flush step on `rx_ts` as the byte step left it. -/
def execPoll (s : State) : Host.Outcome State Fault Refusal :=
  match pollByte s with
  | .error f => .fault f
  | .ok (s1, ev) =>
    match flushStep s1.rxTs s1 with
    | .error f => .fault f
    | .ok (s2, fired) => .next (respond (bitByte s2.rxPending) (ev ||| evIf fired evTxFlush) s2)

/-- HASFRAME (R62): `Complete`. -/
def execHasframe (s : State) : Host.Outcome State Fault Refusal :=
  match frameComplete s with
  | .error f => .fault f
  | .ok c => .next (respond (bitByte c) 0 s)

/-- CKVALID (R63): `Valid`. -/
def execCkvalid (s : State) : Host.Outcome State Fault Refusal :=
  match frameValid s with
  | .error f => .fault f
  | .ok v => .next (respond (bitByte v) 0 s)

/-- The copy of a validated frame into the snapshot, index to index (R22, R64). -/
def copyMessage (s : State) : Except Fault State :=
  match readBytes .rxBuf s 0 s.rxLen with
  | .error f => .error f
  | .ok bs =>
    match writeBytes .msgBuf 0 bs s with
    | .error f => .error f
    | .ok s' => .ok { s' with msgLen := s.rxLen, msgValid := true }

/-- TAKE (R64): a valid frame is copied and the buffer cleared; a complete frame whose checksum fails is
cleared; anything else changes nothing. -/
def execTake (s : State) : Host.Outcome State Fault Refusal :=
  match frameComplete s with
  | .error f => .fault f
  | .ok false => .next (respond 0 0 s)
  | .ok true =>
    match xorOk s with
    | .error f => .fault f
    | .ok false => .next (respond 0 evRxCkFail (clearRx s))
    | .ok true =>
      match copyMessage s with
      | .error f => .fault f
      | .ok s' => .next (respond 1 evMsg (clearRx s'))

end Sys2Proof.Machine
end

