-- ==== Sys2Proof/Syntax.lean ====
section
/-! DEFINITION. The twelve operations (rule R50 of 30_encoding.md), one constructor for each row of
spec/opcode_table.json. -/

namespace Sys2Proof

/-- An operation with its operands. The clock input `now` is not part of the command word (R48). -/
inductive Instr where
  /-- INGEST (R60), format FB: the received byte. -/
  | ingest (b : Byte)
  /-- POLL (R61), format F0. -/
  | poll
  /-- HASFRAME (R62), format F0. -/
  | hasframe
  /-- CKVALID (R63), format F0. -/
  | ckvalid
  /-- TAKE (R64), format F0. -/
  | take
  /-- STAGE (R75), format FS: source id, destination id, and the `n` payload bytes that follow the
  command word (R53); `n` is the length of `data`. -/
  | stage (src dst : Byte) (data : List Byte)
  /-- TRYFLUSH (R76), format F0. -/
  | tryflush
  /-- TXPEND (R77), format F0. -/
  | txpend
  /-- MSRC (R85), format F0. -/
  | msrc
  /-- MLEN (R86), format F0. -/
  | mlen
  /-- MDST (R87), format F0. -/
  | mdst
  /-- MPAY (R88), format FB: the payload offset. -/
  | mpay (i : Byte)
  deriving DecidableEq, Repr

end Sys2Proof
end

