-- ==== Sys2Proof/Machine/Dispatch.lean ====
section
/-! DEFINITION. The meaning of each operation (rule R50 of 30_encoding.md), one arm for each. -/

namespace Sys2Proof.Machine

/-- One operation on a state, atomic between its request and its response (R8, R48). -/
def exec (i : Instr) (s : State) : Host.Outcome State Fault Refusal :=
  match i with
  | .ingest b => Sys2Proof.Machine.execIngest b s
  | .poll => Sys2Proof.Machine.execPoll s
  | .hasframe => Sys2Proof.Machine.execHasframe s
  | .ckvalid => Sys2Proof.Machine.execCkvalid s
  | .take => Sys2Proof.Machine.execTake s
  | .stage src dst data => Sys2Proof.Machine.execStage src dst data s
  | .tryflush => Sys2Proof.Machine.execTryflush s
  | .txpend => Sys2Proof.Machine.execTxpend s
  | .msrc => Sys2Proof.Machine.execMsrc s
  | .mlen => Sys2Proof.Machine.execMlen s
  | .mdst => Sys2Proof.Machine.execMdst s
  | .mpay k => Sys2Proof.Machine.execMpay k s

end Sys2Proof.Machine
end

