-- ==== Sys2Proof/WellFormed.lean ====
section
/-! DEFINITION. Which operations a request can carry (rules R48, R49, R53 of 30_encoding.md). -/

namespace Sys2Proof

/-- The one bound the encoding sets: STAGE's byte count `n` is the 8-bit field 7:0 of the command word
(R49), so a request carries at most 255 payload bytes. A frame that does not fit the transmit buffer is
well formed and is refused by STAGE itself (R75). -/
def Instr.wellFormed : Instr → Bool
  | .stage _ _ data => decide (data.length ≤ 255)
  | .ingest _ => true
  | .poll => true
  | .hasframe => true
  | .ckvalid => true
  | .take => true
  | .tryflush => true
  | .txpend => true
  | .msrc => true
  | .mlen => true
  | .mdst => true
  | .mpay _ => true

end Sys2Proof
end

