-- ==== Sys2Proof/Decode.lean ====
section
/-! DEFINITION. Decoding and encoding of requests (rules R49, R50, R52, R53 of 30_encoding.md). -/

namespace Sys2Proof

/-- Why no operation is read from a request. -/
inductive Reject where
  /-- `op` is 0x0, 0xD, 0xE or 0xF: it selects no operation (R52). -/
  | badOp
  /-- A STAGE word with fewer than `n` data bytes after it: not a whole request (R48, R53; log 4). -/
  | incomplete
  deriving DecidableEq, Repr

/-- Field `op`, bits 31:28 (R49). -/
def opField (w : CmdWord) : BitVec 4 := w.extractLsb' 28 4

/-- Field `a`, bits 23:16 (R49): the byte of INGEST, the source id of STAGE, the offset of MPAY. -/
def aField (w : CmdWord) : Byte := w.extractLsb' 16 8

/-- Field `b`, bits 15:8 (R49): the destination id of STAGE. -/
def bField (w : CmdWord) : Byte := w.extractLsb' 8 8

/-- Field `n`, bits 7:0 (R49): the payload byte count of STAGE. -/
def nField (w : CmdWord) : Byte := w.extractLsb' 0 8

/-- STAGE's operands: the fields `a` and `b` and the first `n` data bytes (format FS, R53); the data
bytes after those stay on the port. -/
def decodeStage (w : CmdWord) (data : List Byte) : Except Reject (Instr × List Byte) :=
  if (nField w).toNat ≤ data.length then
    .ok (.stage (aField w) (bField w) (data.take (nField w).toNat), data.drop (nField w).toNat)
  else .error .incomplete

/-- The operation a command word selects, given the data bytes that follow it, with the data bytes it
leaves (R50). A decoder needs only `op`; 0x0, 0xD, 0xE and 0xF are reserved (R52); the fields a format
does not use are ignored (R49). -/
def decode (w : CmdWord) (data : List Byte) : Except Reject (Instr × List Byte) :=
  match (opField w).toNat with
  | 0x1 => .ok (.ingest (aField w), data)
  | 0x2 => .ok (.poll, data)
  | 0x3 => .ok (.hasframe, data)
  | 0x4 => .ok (.ckvalid, data)
  | 0x5 => .ok (.take, data)
  | 0x6 => decodeStage w data
  | 0x7 => .ok (.tryflush, data)
  | 0x8 => .ok (.txpend, data)
  | 0x9 => .ok (.msrc, data)
  | 0xA => .ok (.mlen, data)
  | 0xB => .ok (.mdst, data)
  | 0xC => .ok (.mpay (aField w), data)
  | _ => .error .badOp

/-- How many data bytes follow a command word: `n` for STAGE, none for any other (R48, R53). -/
def dataCount (w : CmdWord) : Nat :=
  if (opField w).toNat = 0x6 then (nField w).toNat else 0

/-- The operation code of R50. -/
def Instr.opcode : Instr → BitVec 4
  | .ingest _ => 0x1
  | .poll => 0x2
  | .hasframe => 0x3
  | .ckvalid => 0x4
  | .take => 0x5
  | .stage _ _ _ => 0x6
  | .tryflush => 0x7
  | .txpend => 0x8
  | .msrc => 0x9
  | .mlen => 0xA
  | .mdst => 0xB
  | .mpay _ => 0xC

/-- A command word laid out by R49, `rsv` zero. -/
def packWord (op : BitVec 4) (a b n : Byte) : CmdWord := op ++ 0#4 ++ a ++ b ++ n

/-- The data bytes of a request: STAGE's payload, nothing for any other operation (R48). -/
def Instr.dataBytes : Instr → List Byte
  | .stage _ _ data => data
  | .ingest _ => []
  | .poll => []
  | .hasframe => []
  | .ckvalid => []
  | .take => []
  | .tryflush => []
  | .txpend => []
  | .msrc => []
  | .mlen => []
  | .mdst => []
  | .mpay _ => []

/-- The command word of an operation, every ignored field zero (R49; log 15). -/
def encodeWord : Instr → CmdWord
  | .ingest b => packWord 0x1 b 0 0
  | .poll => packWord 0x2 0 0 0
  | .hasframe => packWord 0x3 0 0 0
  | .ckvalid => packWord 0x4 0 0 0
  | .take => packWord 0x5 0 0 0
  | .stage src dst data => packWord 0x6 src dst (BitVec.ofNat 8 data.length)
  | .tryflush => packWord 0x7 0 0 0
  | .txpend => packWord 0x8 0 0 0
  | .msrc => packWord 0x9 0 0 0
  | .mlen => packWord 0xA 0 0 0
  | .mdst => packWord 0xB 0 0 0
  | .mpay i => packWord 0xC i 0 0

/-- The request of a well-formed operation: its command word and its data bytes. -/
def encode (i : Instr) : CmdWord × List Byte := (encodeWord i, i.dataBytes)

/-- The first `n` data bytes an opcode-table number gives after its command word: bits 39:32 are the first. -/
def tableData (v : Nat) : Nat → List Byte
  | 0 => []
  | n + 1 => BitVec.ofNat 8 (v / 2 ^ 32) :: tableData (v / 2 ^ 8) n

/-- The request an opcode-table number stands for: its command word, and the data bytes that word asks for.
The table gives a data byte no bits, so a bit from `nbits` up is 0. -/
def tableRequest (nbits w : Nat) : CmdWord × List Byte :=
  let v := w % 2 ^ nbits
  (BitVec.ofNat 32 v, tableData v (dataCount (BitVec.ofNat 32 v)))

/-- The operation this decoder reads from an instruction numbered as spec/opcode_table.json numbers it:
bits 31:0 are the command word, and every bit from `nbits` up is 0. -/
def decodeTableWord (nbits w : Nat) : Option Instr :=
  match decode (tableRequest nbits w).1 (tableRequest nbits w).2 with
  | .ok (i, _) => some i
  | .error _ => none

end Sys2Proof
end

