-- ==== Sys2Proof/Machine/Environment.lean ====
section
/-! DEFINITION. The command port and the actions of the agents outside the core: transport, clock, reset
line (rules R36 to R39, R48, R53, R110, R115, R116). -/

namespace Sys2Proof.Machine

/-- The data bytes that stand on the command port before anything else happens (R53). -/
def dataRun : List Input → List Byte
  | .data b :: rest => b :: dataRun rest
  | .cmd _ :: _ => []
  | .clock _ :: _ => []
  | .receive _ :: _ => []
  | .send :: _ => []
  | .reset :: _ => []
  | [] => []

/-- The inputs without those leading data bytes. -/
def afterData : List Input → List Input
  | .data _ :: rest => afterData rest
  | .cmd w :: rest => .cmd w :: rest
  | .clock t :: rest => .clock t :: rest
  | .receive b :: rest => .receive b :: rest
  | .send :: rest => .send :: rest
  | .reset :: rest => .reset :: rest
  | [] => []

/-- The operation a command word selects with the data bytes that follow it, and the inputs after the
whole request; STAGE takes its `n` data bytes from the port (R53). -/
def fetchRequest (w : CmdWord) (rest : List Input) : Except Reject (Instr × List Input) :=
  match decode w (dataRun rest) with
  | .error r => .error r
  | .ok (i, left) => .ok (i, left.map .data ++ afterData rest)

/-- A command word that selects no operation is refused with `REF_BADOP` (R52); a STAGE word without
its data is no request (log 4). -/
def rejectRequest (r : Reject) (s : State) : Host.Outcome State Fault Refusal :=
  match r with
  | .badOp => .next (refuse refBadOp s)
  | .incomplete => .refused .incompleteRequest

/-- A data byte where a command word must stand (R53; log 4). -/
def rejectStray (_s : State) : Host.Outcome State Fault Refusal := .refused .strayData

/-- The clock input takes the value `t`, as a number of `TSW` bits (R7, R110; log 11). -/
def clockTo (t : Nat) (s : State) : State := { s with now := t % s.cfg.timeRange }

/-- The transport appends a received byte to the tail of `Q_rx` (R37). -/
def transportReceive (b : Byte) (s : State) : State := { s with qRx := s.qRx ++ [b] }

/-- The transport removes the byte at the head of `Q_tx`, if there is one (R38). -/
def transportSend (s : State) : State := { s with qTx := s.qTx.tail }

/-- The core's reset (R115), the clock reading `now`: `ClearRx` together with clearing the transmit, echo
and snapshot registers; every buffer byte loses its value. The queues, the clock and the parameters are
not touched (R116). The response port answers nothing until the next request (log 13). -/
def hardwareReset (s : State) : State :=
  { State.resetAt s.cfg s.now with qRx := s.qRx, qTx := s.qTx, now := s.now, inputs := s.inputs }

/-- With nothing issued the core is passive (R9, R17, R136; log 3). -/
def idleStep (s : State) : Host.Outcome State Fault Refusal := .next s

end Sys2Proof.Machine
end

