-- ==== Sys2Proof/Machine/Step.lean ====
section
/-! DEFINITION. One step: the next action of the one total order of rule R41. -/

namespace Sys2Proof.Machine

/-- One step takes the oldest input: a request is decoded and executed, an action of the transport, the
clock or the reset line takes place; with no input the core is passive. -/
def step (s : State) : Host.Outcome State Fault Refusal :=
  match s.inputs with
  | [] => idleStep s
  | .cmd w :: rest =>
    match fetchRequest w rest with
    | .error r => rejectRequest r { s with inputs := rest }
    | .ok (i, rest') => exec i { s with inputs := rest' }
  | .data _ :: _ => rejectStray s
  | .clock t :: rest => .next (clockTo t { s with inputs := rest })
  | .receive b :: rest => .next (transportReceive b { s with inputs := rest })
  | .send :: rest => .next (transportSend { s with inputs := rest })
  | .reset :: rest => .next (hardwareReset { s with inputs := rest })

/-- The state with one request, numbered as spec/opcode_table.json numbers it, issued before everything
else: its command word, and for STAGE its `n` data bytes, at the head of the inputs (log 14). -/
def State.withFetchWord (s : State) (nbits w : Nat) : State :=
  { s with
    inputs := .cmd (tableRequest nbits w).1 :: ((tableRequest nbits w).2.map .data ++ s.inputs) }

end Sys2Proof.Machine
end

