-- ==== Sys2Proof/Machine/Script.lean ====
section
/-! DEFINITION. The pseudo-operations and directives of rule R57 and the names of rule R56 of
30_encoding.md, as lists of inputs: how a program of the spec's notation is written for this machine. -/

namespace Sys2Proof.Machine

/-- The mnemonic of an operation (R50, R56). -/
def mnemonicOf : Instr → String
  | .ingest _ => "INGEST"
  | .poll => "POLL"
  | .hasframe => "HASFRAME"
  | .ckvalid => "CKVALID"
  | .take => "TAKE"
  | .stage _ _ _ => "STAGE"
  | .tryflush => "TRYFLUSH"
  | .txpend => "TXPEND"
  | .msrc => "MSRC"
  | .mlen => "MLEN"
  | .mdst => "MDST"
  | .mpay _ => "MPAY"

/-- The source's own name of an operation, a second spelling of the mnemonic (R56). -/
def sourceNameOf : Instr → String
  | .ingest _ => "ingest"
  | .poll => "poll"
  | .hasframe => "hasCompleteFrame"
  | .ckvalid => "checksumValid"
  | .take => "takeMessage"
  | .stage _ _ _ => "stage"
  | .tryflush => "tryFlush"
  | .txpend => "pendingFlag"
  | .msrc => "source"
  | .mlen => "length"
  | .mdst => "destination"
  | .mpay _ => "payloadByte"

/-- The inputs that present one operation on the command port (R48). -/
def request (i : Instr) : List Input := .cmd (encode i).1 :: (encode i).2.map .data

/-- `MNEMONIC operands @t` (R56): the clock reads `t`, then the operation is presented. -/
def requestAt (i : Instr) (t : Nat) : List Input := .clock t :: request i

/-- `BURST [b0, ..., bk] @t` (R57): one INGEST for each byte. -/
def burst (bs : List Byte) (t : Nat) : List Input := bs.flatMap fun b => requestAt (.ingest b) t

/-- `DRAIN @t` (R57) on a state: POLL repeated while `Q_rx` is not empty, and at least once. -/
def drain (s : State) (t : Nat) : List Input :=
  (List.replicate (max 1 s.qRx.length) (requestAt .poll t)).flatten

/-- `WIRE [b0, ...]` (R57): the bytes arrive at the tail of `Q_rx`. -/
def wire (bs : List Byte) : List Input := bs.map .receive

/-- `LOOPBACK` (R57) on a state: every byte of `Q_tx` moves to the tail of `Q_rx` in order, the echo path
of R39. -/
def loopback (s : State) : List Input := s.qTx.flatMap fun b => [.send, .receive b]

end Sys2Proof.Machine
end

