-- ==== Sys2Proof/Safety.lean ====
section
/-! DEFINITION. What claims are stated in: the contents of a buffer as a list of bytes, what makes such a
run of bytes a frame (R20, R21, R47), the invariant of R26, and the premises on the environment (R110). -/

namespace Sys2Proof.Machine

/-- The buffer `sp` begins with the bytes `bs`: each was written since reset and has this value. -/
abbrev Holds (sp : Space) (bs : List Byte) (s : State) : Prop :=
  ∀ k, k < bs.length → s.byteAt sp k = bs[k]?

/-- The first `n` bytes of the buffer `sp` have been written since reset (R26 I7). -/
abbrev Written (sp : Space) (n : Nat) (s : State) : Prop :=
  ∀ k, k < n → (s.byteAt sp k).isSome = true

/-- The declared length of a run of bytes matches its number of bytes: byte 1 plus 2 (R45). -/
abbrev LengthMatches (bs : List Byte) : Prop := (bs[1]?).map (fun len => len.toNat + 2) = some bs.length

/-- A run of bytes is a complete frame: more than `MINCNT` bytes, whose one legal value is 4 (R4), as many as
declared (R20). -/
abbrev CompleteRun (bs : List Byte) : Prop := 4 < bs.length ∧ LengthMatches bs

/-- A run of bytes is a complete frame whose XOR, checksum included, is `0x00` (R21, R47). -/
abbrev ValidRun (bs : List Byte) : Prop := CompleteRun bs ∧ xorAll bs = 0

/-- The invariant of the machine: I1 to I7 of R26, the ranges of R10, and the canonical form of the
buffers. -/
structure Consistent (s : State) : Prop where
  /-- The parameters are legal (R4). -/
  cfgLegal : s.cfg.legal
  /-- The clock input has `TSW` bits (R7). -/
  nowRange : s.now < s.cfg.timeRange
  /-- `rx_ts` has `TSW` bits (R10). -/
  tsRange : s.rxTs < s.cfg.timeRange
  /-- The receive buffer is in canonical form (R30). -/
  rxWf : Memory.wf s.cfg.rxCap s.rxBuf
  /-- The transmit buffer is in canonical form (R30). -/
  txWf : Memory.wf s.cfg.txCap s.txBuf
  /-- The snapshot is in canonical form (R30). -/
  msgWf : Memory.wf s.cfg.rxCap s.msgBuf
  /-- I1: `rx_len <= 255`. -/
  rxLenLe : s.rxLen ≤ s.cfg.rxCap
  /-- I7: the accumulated bytes have been written. -/
  rxWritten : Written .rxBuf s.rxLen s
  /-- I2: `rx_pending = 1` if and only if `Valid`. -/
  rxPendingValid : frameValid s = .ok s.rxPending
  /-- I3: `tx_len = 0` or `4 <= tx_len <= TXCAP`. -/
  txLenRange : s.txLen = 0 ∨ 4 ≤ s.txLen ∧ s.txLen ≤ s.cfg.txCap
  /-- I3: `tx_pending = 1` implies `tx_len >= 4`. -/
  txPendingStaged : s.txPending = true → 4 ≤ s.txLen
  /-- I4: `echo_rem <= TXCAP`. -/
  echoLe : s.echoRem ≤ s.cfg.txCap
  /-- I5, I7: the staged frame has been written, declares its own length and has XOR 0. -/
  txFrame : 0 < s.txLen →
    ∃ bs, bs.length = s.txLen ∧ Holds .txBuf bs s ∧ LengthMatches bs ∧ xorAll bs = 0
  /-- I6: `5 <= msg_len <= 255` with a snapshot; `msg_len = 0` without one (R10). -/
  msgLenRange : if s.msgValid then 5 ≤ s.msgLen ∧ s.msgLen ≤ s.cfg.rxCap else s.msgLen = 0
  /-- I6, I7: the snapshot has been written and is a validated frame. -/
  msgFrame : s.msgValid = true → ∃ bs, bs.length = s.msgLen ∧ Holds .msgBuf bs s ∧ ValidRun bs

/-- The clock, seen from a moment `t0`, moves forward only and stays within `T_IDLE` of `t0` through these
inputs, `e` being the time elapsed so far: the premise of R79 and R110 that the clock is monotonic and
has not wrapped past `rx_ts`. -/
def ClockQuiet (c : Config) (t0 : Nat) : Nat → List Input → Prop
  | _, [] => True
  | e, .clock t :: rest =>
    e ≤ elapsed c t t0 ∧ elapsed c t t0 < c.tIdle ∧ ClockQuiet c t0 (elapsed c t t0) rest
  | e, .cmd _ :: rest => ClockQuiet c t0 e rest
  | e, .data _ :: rest => ClockQuiet c t0 e rest
  | e, .receive _ :: rest => ClockQuiet c t0 e rest
  | e, .send :: rest => ClockQuiet c t0 e rest
  | e, .reset :: rest => ClockQuiet c t0 e rest

/-- INGEST issued for each byte of a list in turn, the clock standing still (the source's "delivered as
one burst", R57). -/
def ingestAll : List Byte → State → Host.Outcome State Fault Refusal
  | [], s => .next s
  | b :: bs, s =>
    match exec (.ingest b) s with
    | .next t => ingestAll bs t
    | .fault f => .fault f
    | .refused r => .refused r

/-- INGEST issued for each byte of a list in turn, the clock reading the time that stands with the byte
(R7, R57). -/
def ingestAt : List (Nat × Byte) → State → Host.Outcome State Fault Refusal
  | [], s => .next s
  | (time, b) :: rest, s =>
    match exec (.ingest b) (clockTo time s) with
    | .next t => ingestAt rest t
    | .fault f => .fault f
    | .refused r => .refused r

/-- Every byte of a list comes less than `T_GAP` after the byte before it, the first less than `T_GAP` after
the moment `ts` (R60, R99). -/
def InTime (c : Config) : Nat → List (Nat × Byte) → Prop
  | _, [] => True
  | ts, (time, _) :: rest => elapsed c time ts < c.tGap ∧ InTime c time rest

/-- Every gap between two bytes of a list is below `T_GAP`; the first byte may come at any time (R59). -/
def GapsBelow (c : Config) : List (Nat × Byte) → Prop
  | [] => True
  | (time, _) :: rest => InTime c time rest

/-- What the last operation answered: performed, with this result and these events (R51). -/
abbrev Performed (val : Byte) (ev : BitVec 8) (t : State) : Prop :=
  t.response = some { ok := true, ref := 0, val := val, ev := ev }

/-- The last operation was refused for this reason, with `val = 0` and `ev = 0` (R51, R100). -/
abbrev RefusedWith (reason : BitVec 2) (t : State) : Prop :=
  t.response = some { ok := false, ref := reason, val := 0, ev := 0 }

/-- Everything but the receive registers `rx_buf`, `rx_len`, `rx_pending`, `rx_ts` and the response port
is the same in both states. -/
abbrev SameButRx (s t : State) : Prop :=
  t.echoRem = s.echoRem ∧ (∀ k, t.byteAt .txBuf k = s.byteAt .txBuf k) ∧ t.txLen = s.txLen ∧
    t.txPending = s.txPending ∧ (∀ k, t.byteAt .msgBuf k = s.byteAt .msgBuf k) ∧
    t.msgLen = s.msgLen ∧ t.msgValid = s.msgValid ∧ t.qRx = s.qRx ∧ t.qTx = s.qTx ∧
    t.now = s.now ∧ t.inputs = s.inputs ∧ t.cfg = s.cfg

end Sys2Proof.Machine
end

