-- ==== Sys2Proof/Certificates/Slice0/Obligations.lean ====
section
/-! DEFINITION. The statements for the provers. Each docstring names the rule of spec/ it formalises.
`Holds sp bs s` says that the buffer `sp` begins with the bytes `bs`; a statement that speaks of "the
accumulated bytes", "the staged frame" or "the snapshot" takes those bytes as `bs`. -/

open Sys2Proof Sys2Proof.Machine

/-! ### Reset -/

/-- R115: the value of every element after reset, whatever the clock reads when reset is released, and the
derived state. No buffer byte has a value. -/
def Obligations.ResetLeavesSpecifiedState : Prop :=
  ∀ (c : Config) (now0 : Nat), now0 < c.timeRange →
    (State.resetAt c now0).rxLen = 0 ∧ (State.resetAt c now0).rxPending = false ∧
    (State.resetAt c now0).rxTs = now0 ∧ (State.resetAt c now0).echoRem = 0 ∧
    (State.resetAt c now0).txLen = 0 ∧ (State.resetAt c now0).txPending = false ∧
    (State.resetAt c now0).msgLen = 0 ∧ (State.resetAt c now0).msgValid = false ∧
    (∀ sp k, (State.resetAt c now0).byteAt sp k = none) ∧
    rxPhase (State.resetAt c now0) = .ok .empty ∧ txPhase (State.resetAt c now0) = .idle ∧
    (State.resetAt c now0).frameReady = false ∧ (State.resetAt c now0).txPendingOut = false ∧
    (State.resetAt c now0).echoActive = false

/-- R115, R116: releasing reset in the middle of a run gives every element of the core its reset value,
`rx_ts` being the clock's value, and leaves `Q_rx`, `Q_tx`, the clock and the parameters as they were. The
empty response port is the model's choice (log 13). -/
def Obligations.ResetStepSparesTransportAndClock : Prop :=
  ∀ (s : State) (rest : List Input), s.inputs = .reset :: rest → s.now < s.cfg.timeRange →
    ∃ t, step s = .next t ∧
      t.rxLen = 0 ∧ t.rxPending = false ∧ t.rxTs = s.now ∧ t.echoRem = 0 ∧ t.txLen = 0 ∧
      t.txPending = false ∧ t.msgLen = 0 ∧ t.msgValid = false ∧
      (∀ sp k, t.byteAt sp k = none) ∧
      t.qRx = s.qRx ∧ t.qTx = s.qTx ∧ t.now = s.now ∧ t.cfg = s.cfg ∧ t.inputs = rest ∧
      t.response = none

/-- The reset state meets the invariant of R26, for every legal parameter set and every reading of the
clock, and so does the state after reset the model runs from. -/
def Obligations.ResetIsConsistent : Prop :=
  (∀ (c : Config) (now0 : Nat), c.legal → Consistent (State.resetAt c now0)) ∧ Consistent State.reset

/-- R117 (3): right after reset every operation is legal at once, with the results the reset state gives,
whatever the clock reads by then and whatever the transport's queues hold (R116). POLL ingests the head of
`Q_rx`, the first byte of a run, or does nothing when `Q_rx` is empty. -/
def Obligations.FirstOperationsAfterReset : Prop :=
  ∀ (c : Config) (now0 t0 : Nat) (q q' : List Byte) (s : State), c.legal →
    s = { clockTo t0 (State.resetAt c now0) with qRx := q, qTx := q' } →
    exec .hasframe s = .next (respond 0 0 s) ∧ exec .ckvalid s = .next (respond 0 0 s) ∧
    exec .take s = .next (respond 0 0 s) ∧ exec .txpend s = .next (respond 0 0 s) ∧
    exec .tryflush s = .next (respond 0 0 s) ∧
    exec .msrc s = .next (refuse refNoMsg s) ∧ exec .mlen s = .next (refuse refNoMsg s) ∧
    exec .mdst s = .next (refuse refNoMsg s) ∧
    (∀ k, exec (.mpay k) s = .next (refuse refNoMsg s)) ∧
    (∀ b, ∃ t, exec (.ingest b) s = .next t ∧ t.rxLen = 1 ∧ t.byteAt .rxBuf 0 = some b ∧
      t.rxTs = s.now ∧ Performed 0 0x10 t) ∧
    (∀ src dst data, data.length + 4 ≤ c.txCap →
      ∃ t, exec (.stage src dst data) s = .next t ∧ t.txLen = data.length + 4 ∧
        t.txPending = true ∧ Holds .txBuf (buildFrame src dst data) t ∧ Performed 0 0 t) ∧
    (q = [] → exec .poll s = .next (respond 0 0 s)) ∧
    (∀ b rest, q = b :: rest →
      ∃ t, exec .poll s = .next t ∧ t.qRx = rest ∧ t.qTx = q' ∧ t.rxLen = 1 ∧
        t.byteAt .rxBuf 0 = some b ∧ t.rxTs = s.now ∧ Performed 0 0x10 t)

/-! ### Requests and the agents outside the core -/

/-- R48, R8: when the word and data bytes at the head of the inputs decode to an operation, a step is that
operation on the state from which exactly that request has been taken; nothing else happens in it. -/
def Obligations.StepRunsDecodedRequest : Prop :=
  ∀ (s : State) (w : CmdWord) (ds : List Byte) (i : Instr) (rest : List Input),
    decode w ds = .ok (i, []) → s.inputs = .cmd w :: (ds.map .data ++ rest) →
    step s = exec i { s with inputs := rest }

/-- R52: a request whose `op` is 0x0, 0xD, 0xE or 0xF is refused with `REF_BADOP`: the word leaves the
port, nothing else changes. -/
def Obligations.ReservedCodesRefused : Prop :=
  ∀ (s : State) (w : CmdWord) (rest : List Input),
    (opField w = 0x0 ∨ opField w = 0xD ∨ opField w = 0xE ∨ opField w = 0xF) →
    s.inputs = .cmd w :: rest →
    step s = .next { s with inputs := rest, response := some { ok := false, ref := 1, val := 0, ev := 0 } }

/-- R53: a STAGE too long for the transmit buffer is refused, its data bytes are still taken from the port
and dropped, and nothing else changes: the next thing on the port is what followed them. -/
def Obligations.OversizeStageDropsItsData : Prop :=
  ∀ (s : State) (src dst : Byte) (data : List Byte) (rest : List Input),
    data.length ≤ 255 → s.cfg.txCap < data.length + 4 →
    s.inputs = request (.stage src dst data) ++ rest →
    step s = .next { s with inputs := rest, response := some { ok := false, ref := 2, val := 0, ev := 0 } }

/-- R37, R38, R7: what a step of the transport and of the clock does, and that it does nothing else. Three
clauses are the model's choice: that a transport with an empty `Q_tx` removes nothing (log 12), that a
clock reading of more than `TSW` bits is cut to them (log 10), and that a step with no input left answers the
same state (log 3). -/
def Obligations.TransportAndClockSteps : Prop :=
  (∀ (s : State) (b : Byte) (rest : List Input), s.inputs = .receive b :: rest →
    step s = .next { s with inputs := rest, qRx := s.qRx ++ [b] }) ∧
  (∀ (s : State) (b : Byte) (q : List Byte) (rest : List Input), s.inputs = .send :: rest →
    s.qTx = b :: q → step s = .next { s with inputs := rest, qTx := q }) ∧
  (∀ (s : State) (rest : List Input), s.inputs = .send :: rest →
    s.qTx = [] → step s = .next { s with inputs := rest }) ∧
  (∀ (s : State) (t : Nat) (rest : List Input), s.inputs = .clock t :: rest →
    t < s.cfg.timeRange → step s = .next { s with inputs := rest, now := t }) ∧
  (∀ (s : State) (t : Nat) (rest : List Input), s.inputs = .clock t :: rest →
    step s = .next { s with inputs := rest, now := t % s.cfg.timeRange }) ∧
  (∀ s : State, s.inputs = [] → step s = .next s)

/-! ### Decoding -/

/-- The command words of 95_test_vectors.md section 2.4 (V-EN1 to V-EN7), written out there from R49. -/
def Obligations.WordsOfTheSpecDecode : Prop :=
  decode 0x10800000 [] = .ok (.ingest 0x80, []) ∧
  decode 0x1F80FFFF [] = .ok (.ingest 0x80, []) ∧
  decode 0x20000000 [] = .ok (.poll, []) ∧
  decode 0xC0030000 [] = .ok (.mpay 3, []) ∧
  decode 0x603F0001 [0x0C] = .ok (.stage 0x3F 0x00 [0x0C], []) ∧
  decode 0x00000000 [] = .error .badOp ∧ decode 0xD0000000 [] = .error .badOp ∧
  decode 0xE0000000 [] = .error .badOp ∧ decode 0xF0000000 [] = .error .badOp

/-- The request of every well-formed operation decodes to it, whatever follows on the port, and the data
bytes that follow stay there (R49, R50, R53). -/
def Obligations.DecodeEncodeAgree : Prop :=
  ∀ (i : Instr) (more : List Byte), i.wellFormed = true →
    decode (encode i).1 ((encode i).2 ++ more) = .ok (i, more)

/-- R49: ignored fields may hold any value and do not change the operation. `op` decides the operation,
`a` is used by formats FB and FS only, `b` and `n` by FS only. -/
def Obligations.IgnoredFieldsDoNotMatter : Prop :=
  ∀ (w w' : CmdWord) (ds : List Byte), opField w = opField w' →
    ((opField w = 0x1 ∨ opField w = 0x6 ∨ opField w = 0xC) → aField w = aField w') →
    (opField w = 0x6 → bField w = bField w' ∧ nField w = nField w') →
    decode w ds = decode w' ds

/-- R50: what is decoded matches the operation's row, `match = op << 28` under `mask = 0xF0000000`, its
operands are well formed, and every word with an assigned code decodes once its data bytes are there. -/
def Obligations.DecodeFollowsMatchAndMask : Prop :=
  (∀ (w : CmdWord) (ds : List Byte) (i : Instr) (left : List Byte), decode w ds = .ok (i, left) →
    w &&& 0xF0000000#32 = i.opcode.zeroExtend 32 <<< 28 ∧ i.wellFormed = true ∧
      ds = i.dataBytes ++ left) ∧
  (∀ (w : CmdWord) (ds : List Byte), 1 ≤ (opField w).toNat → (opField w).toNat ≤ 12 →
    dataCount w ≤ ds.length → ∃ i left, decode w ds = .ok (i, left))

/-! ### The invariant and the absence of faults -/

/-- R26 (I1 to I7), R10: every step keeps the invariant. -/
def Obligations.StepKeepsConsistency : Prop :=
  ∀ s t : State, Consistent s → step s = .next t → Consistent t

/-- R95: "Nothing in this core is fatal". From a state that meets the invariant every operation answers a
next state. -/
def Obligations.EveryOperationCompletes : Prop :=
  ∀ (i : Instr) (s : State), Consistent s → ∃ t, exec i s = .next t

/-- A run from a state that meets the invariant never faults, however long it is and whatever the host,
the transport, the clock and the reset line do; it stops only where the host breaks the command port's
protocol (log 4). -/
def Obligations.RunsNeverFault : Prop :=
  ∀ (k : Nat) (s : State), Consistent s →
    (∃ t, Host.Core.run Sys2Proof.core k s = .next t ∧ Consistent t) ∨
    Host.Core.run Sys2Proof.core k s = .refused Refusal.incompleteRequest ∨
    Host.Core.run Sys2Proof.core k s = .refused Refusal.strayData

/-- The model's choice (log 4): a step stops exactly where a data byte stands in place of a command word,
or where fewer data bytes follow a STAGE word than its field `n` says. It stops with nothing else: no fault
(R95) and no operation without a meaning. -/
def Obligations.OnlyMalformedRequestsStop : Prop :=
  ∀ s : State, Consistent s →
    (step s = .refused .strayData ↔ ∃ b rest, s.inputs = .data b :: rest) ∧
    (step s = .refused .incompleteRequest ↔
      ∃ w rest, s.inputs = .cmd w :: rest ∧ opField w = 0x6 ∧
        (dataRun rest).length < (nField w).toNat) ∧
    (∀ f, step s ≠ .fault f) ∧ (∀ r, step s = .refused r → r = .strayData ∨ r = .incompleteRequest)

/-! ### INGEST -/

/-- R60, R98, R99: the accumulated bytes are discarded first on overflow or gap; the byte is appended;
`rx_ts` is `now`; `rx_pending` is the validity of the bytes then accumulated; the events are those of the
state before. No other byte of any buffer and no other element changes. -/
def Obligations.IngestAppendsToRun : Prop :=
  ∀ (s : State) (bs : List Byte) (b : Byte), Consistent s → bs.length = s.rxLen → Holds .rxBuf bs s →
    ∃ (t : State) (run : List Byte), exec (.ingest b) s = .next t ∧
      ((254 < s.rxLen ∨ s.cfg.tGap ≤ elapsed s.cfg s.now s.rxTs) → run = [b]) ∧
      (¬ (254 < s.rxLen ∨ s.cfg.tGap ≤ elapsed s.cfg s.now s.rxTs) → run = bs ++ [b]) ∧
      t.rxLen = run.length ∧ Holds .rxBuf run t ∧ t.rxTs = s.now ∧
      (t.rxPending = true ↔ ValidRun run) ∧
      Performed (if t.rxPending then 1 else 0)
        ((if 254 < s.rxLen then 0x01 else 0) |||
         (if s.cfg.tGap ≤ elapsed s.cfg s.now s.rxTs ∧ 0 < s.rxLen then 0x02 else 0) ||| 0x10) t ∧
      (∀ k, k + 1 ≠ run.length → t.byteAt .rxBuf k = s.byteAt .rxBuf k) ∧
      SameButRx s t

/-- R31, R57: a burst into an empty buffer is stored in order, the k-th byte at index k, and `rx_pending`
is the validity of the whole. -/
def Obligations.BurstIsStoredInOrder : Prop :=
  ∀ (s : State) (bs : List Byte), Consistent s → s.rxLen = 0 → 0 < s.cfg.tGap → 0 < bs.length →
    bs.length ≤ 255 →
    ∃ t, ingestAll bs s = .next t ∧ Consistent t ∧ t.rxLen = bs.length ∧ Holds .rxBuf bs t ∧
      t.rxTs = s.now ∧ (t.rxPending = true ↔ ValidRun bs) ∧ SameButRx s t

/-- R66, C2: the 255th byte of a run fills the buffer and clears nothing; the clear happens at the INGEST
of the 256th, which becomes byte 0 of a new run. -/
def Obligations.OverflowClearsAtNextByte : Prop :=
  ∀ (s : State) (bs : List Byte) (b : Byte), Consistent s → s.rxLen = 0 → 0 < s.cfg.tGap →
    bs.length = 255 →
    ∃ t u, ingestAll bs s = .next t ∧ t.rxLen = 255 ∧ Holds .rxBuf bs t ∧
      exec (.ingest b) t = .next u ∧ u.rxLen = 1 ∧ u.byteAt .rxBuf 0 = some b ∧
      u.rxPending = false ∧ Performed 0 0x11 u

/-- R121: a complete frame that gets one more byte in time is no longer complete, and does not become
complete again however many bytes follow in time, each less than `T_GAP` after the one before it, until the
buffer is full. -/
def Obligations.OverrunLosesFrameForGood : Prop :=
  ∀ (s : State) (bs : List Byte) (more : List (Nat × Byte)), Consistent s → bs.length = s.rxLen →
    Holds .rxBuf bs s → CompleteRun bs → more ≠ [] → InTime s.cfg s.rxTs more →
    s.rxLen + more.length ≤ 255 →
    ∃ t, ingestAt more s = .next t ∧ t.rxLen = s.rxLen + more.length ∧ t.rxPending = false ∧
      exec .hasframe t = .next (respond 0 0 t)

/-- R54: a run that declares length 0, 1, 2, 254 or 255 is not a complete frame at any byte count, so
neither HASFRAME nor CKVALID ever reports it. -/
def Obligations.UnframeableLengthsNeverComplete : Prop :=
  ∀ (s : State) (bs : List Byte) (len : Byte), Consistent s → bs.length = s.rxLen → Holds .rxBuf bs s →
    bs[1]? = some len → (len.toNat ≤ 2 ∨ 254 ≤ len.toNat) →
    exec .hasframe s = .next (respond 0 0 s) ∧ exec .ckvalid s = .next (respond 0 0 s)

/-! ### POLL -/

/-- R61: within the echo window, nothing pending, the head of `Q_rx` is discarded unread: `echo_rem` goes
down by one and nothing else changes; the flush step does not fire. -/
def Obligations.PollDiscardsEcho : Prop :=
  ∀ (s : State) (b : Byte) (rest : List Byte), s.qRx = b :: rest → 0 < s.echoRem →
    s.txPending = false →
    exec .poll s = .next { s with
      qRx := rest
      echoRem := s.echoRem - 1
      response := some { ok := true, ref := 0, val := if s.rxPending then 1 else 0, ev := 0x08 } }

/-- R61 and its corner cases 2 and 3: outside the echo window, or while a frame is pending, the head of
`Q_rx` is ingested, and the POLL is then exactly the INGEST of that byte: it does not flush. -/
def Obligations.PollIngestsHeadOfQueue : Prop :=
  ∀ (s : State) (b : Byte) (rest : List Byte), Consistent s → s.qRx = b :: rest →
    (s.echoRem = 0 ∨ s.txPending = true) → 0 < s.cfg.tIdle →
    ∃ t, exec .poll s = .next t ∧ exec (.ingest b) { s with qRx := rest } = .next t ∧ t.qRx = rest

/-- R61 corner case 4: with `Q_rx` empty a POLL changes nothing on the receive side, makes no gap test, and
is the flush step: it answers `rx_pending`. -/
def Obligations.PollOnEmptyQueueIsFlushStep : Prop :=
  ∀ s : State, Consistent s → s.qRx = [] →
    ∃ t u, exec .poll s = .next t ∧ exec .tryflush s = .next u ∧
      t = { u with response := some { ok := true, ref := 0, val := if s.rxPending then 1 else 0,
                                      ev := if s.txPending ∧ s.cfg.tIdle ≤ elapsed s.cfg s.now s.rxTs
                                            then 0x20 else 0 } } ∧
      t.rxLen = s.rxLen ∧ t.rxTs = s.rxTs ∧ t.rxPending = s.rxPending ∧
      (∀ k, t.byteAt .rxBuf k = s.byteAt .rxBuf k)

/-! ### HASFRAME, CKVALID, TAKE -/

/-- R62: HASFRAME answers `Complete` and changes nothing else. -/
def Obligations.HasframeReportsComplete : Prop :=
  ∀ (s : State) (bs : List Byte), Consistent s → bs.length = s.rxLen → Holds .rxBuf bs s →
    exec .hasframe s = .next { s with
      response := some { ok := true, ref := 0, val := if CompleteRun bs then 1 else 0, ev := 0 } }

/-- R63: CKVALID answers `Complete and XorOk` and changes nothing else. -/
def Obligations.CkvalidReportsValid : Prop :=
  ∀ (s : State) (bs : List Byte), Consistent s → bs.length = s.rxLen → Holds .rxBuf bs s →
    exec .ckvalid s = .next { s with
      response := some { ok := true, ref := 0, val := if ValidRun bs then 1 else 0, ev := 0 } }

/-- R21: on a complete frame of declared length `L`, the source's formula (the XOR of bytes 0 to `L`
against byte `L + 1`) holds exactly when the XOR of the whole frame is `0x00`. -/
def Obligations.ChecksumFormulasAgree : Prop :=
  ∀ (bs : List Byte) (len : Byte), CompleteRun bs → bs[1]? = some len →
    (some (xorAll (bs.take (len.toNat + 1))) = bs[len.toNat + 1]? ↔ xorAll bs = 0)

/-- R64, R97, R96: the three branches of TAKE. A valid frame goes to the snapshot, index to index, and the
buffer is cleared; a complete frame whose checksum fails is cleared and the snapshot stays; anything else
changes nothing. The bytes of `rx_buf`, the snapshot's bytes at and above the frame's length, the transmit
side, `echo_rem` and the queues are untouched. -/
def Obligations.TakeExtractsOrDiscards : Prop :=
  ∀ (s : State) (bs : List Byte), Consistent s → bs.length = s.rxLen → Holds .rxBuf bs s →
    (ValidRun bs →
      ∃ t, exec .take s = .next t ∧ Holds .msgBuf bs t ∧ t.msgLen = s.rxLen ∧ t.msgValid = true ∧
        t.rxLen = 0 ∧ t.rxPending = false ∧ t.rxTs = s.now ∧ Performed 1 0x40 t ∧
        (∀ k, bs.length ≤ k → t.byteAt .msgBuf k = s.byteAt .msgBuf k) ∧
        (∀ k, t.byteAt .rxBuf k = s.byteAt .rxBuf k) ∧ (∀ k, t.byteAt .txBuf k = s.byteAt .txBuf k) ∧
        t.echoRem = s.echoRem ∧ t.txLen = s.txLen ∧ t.txPending = s.txPending ∧ t.qRx = s.qRx ∧
        t.qTx = s.qTx ∧ t.now = s.now ∧ t.inputs = s.inputs ∧ t.cfg = s.cfg) ∧
    (CompleteRun bs ∧ xorAll bs ≠ 0 →
      exec .take s = .next { s with
        rxLen := 0
        rxPending := false
        rxTs := s.now
        response := some { ok := true, ref := 0, val := 0, ev := 0x04 } }) ∧
    (¬ CompleteRun bs → exec .take s = .next (respond 0 0 s))

/-- R41 (b), property L1-P3: after a TAKE that produced a message the buffer is empty, HASFRAME answers 0,
and a second TAKE answers 0 and changes nothing. -/
def Obligations.TakenFrameIsConsumed : Prop :=
  ∀ (s : State) (bs : List Byte), Consistent s → bs.length = s.rxLen → Holds .rxBuf bs s → ValidRun bs →
    ∃ t, exec .take s = .next t ∧ Performed 1 0x40 t ∧ t.rxLen = 0 ∧
      exec .hasframe t = .next (respond 0 0 t) ∧ exec .take t = .next (respond 0 0 t)

/-- R47: changing exactly one byte of a valid frame, not the checksum byte, always makes the check fail;
changing the length byte makes it no longer a complete frame. -/
def Obligations.OneChangedByteFailsChecksum : Prop :=
  ∀ (s : State) (bs : List Byte) (k : Nat) (v : Byte), Consistent s → bs.length = s.rxLen →
    Holds .rxBuf bs s → ValidRun bs → k + 1 < bs.length → bs[k]? ≠ some v →
    exec .ckvalid (s.setMem (s.rxBuf.set k v) .rxBuf) =
      .next (respond 0 0 (s.setMem (s.rxBuf.set k v) .rxBuf)) ∧
    (k = 1 → exec .hasframe (s.setMem (s.rxBuf.set k v) .rxBuf) =
      .next (respond 0 0 (s.setMem (s.rxBuf.set k v) .rxBuf)))

/-! ### STAGE, TRYFLUSH, TXPEND -/

/-- R75, R46, R47: a frame that fits is laid out at index 0 with its length byte and its checksum, marked
pending whether or not one was pending; the bytes of `tx_buf` behind it, the receive side, `echo_rem`, the
snapshot and the queues are untouched; nothing is sent. A frame that does not fit is refused with
`REF_STAGE_LEN` and nothing changes: a frame staged before stays staged and pending. -/
def Obligations.StageBuildsFrame : Prop :=
  ∀ (s : State) (src dst : Byte) (data : List Byte), s.cfg.txCap ≤ 255 →
    (data.length + 4 ≤ s.cfg.txCap →
      ∃ t, exec (.stage src dst data) s = .next t ∧
        t.byteAt .txBuf 0 = some src ∧
        (∃ len, t.byteAt .txBuf 1 = some len ∧ len.toNat = data.length + 2) ∧
        t.byteAt .txBuf 2 = some dst ∧
        (∀ k, k < data.length → t.byteAt .txBuf (3 + k) = data[k]?) ∧
        t.byteAt .txBuf (data.length + 3) =
          some (src ^^^ BitVec.ofNat 8 (data.length + 2) ^^^ dst ^^^ xorAll data) ∧
        t.txLen = data.length + 4 ∧ t.txPending = true ∧ Performed 0 0 t ∧
        (∀ k, data.length + 4 ≤ k → t.byteAt .txBuf k = s.byteAt .txBuf k) ∧
        (∀ k, t.byteAt .rxBuf k = s.byteAt .rxBuf k) ∧ (∀ k, t.byteAt .msgBuf k = s.byteAt .msgBuf k) ∧
        t.rxLen = s.rxLen ∧ t.rxPending = s.rxPending ∧ t.rxTs = s.rxTs ∧ t.echoRem = s.echoRem ∧
        t.msgLen = s.msgLen ∧ t.msgValid = s.msgValid ∧ t.qRx = s.qRx ∧ t.qTx = s.qTx ∧
        t.now = s.now ∧ t.inputs = s.inputs ∧ t.cfg = s.cfg) ∧
    (s.cfg.txCap < data.length + 4 →
      exec (.stage src dst data) s = .next { s with
        response := some { ok := false, ref := 2, val := 0, ev := 0 } })

/-- R76: TRYFLUSH with a pending frame and `Elapsed(now, rx_ts) >= T_IDLE` appends the whole staged frame
to `Q_tx` in order, clears the flag, sets `echo_rem` to the frame's length and changes nothing else; in
every other case it answers 0 and changes nothing. -/
def Obligations.TryflushSendsWhenIdle : Prop :=
  ∀ s : State, Consistent s →
    (s.txPending = true → s.cfg.tIdle ≤ elapsed s.cfg s.now s.rxTs →
      ∀ bs : List Byte, bs.length = s.txLen → Holds .txBuf bs s →
        exec .tryflush s = .next { s with
          qTx := s.qTx ++ bs
          txPending := false
          echoRem := s.txLen
          response := some { ok := true, ref := 0, val := 1, ev := 0x20 } }) ∧
    (s.txPending = false ∨ elapsed s.cfg s.now s.rxTs < s.cfg.tIdle →
      exec .tryflush s = .next (respond 0 0 s))

/-- R77: TXPEND answers the pending flag and changes nothing else. -/
def Obligations.TxpendReportsFlag : Prop :=
  ∀ s : State, exec .txpend s = .next { s with
    response := some { ok := true, ref := 0, val := if s.txPending then 1 else 0, ev := 0 } }

/-! ### The message view -/

/-- R85, R86, R87: MSRC, MLEN and MDST answer bytes 0, 1 and 2 of the snapshot, and are refused with
`REF_NOMSG` when there is none; nothing else changes. MLEN's answer is 3 to 253. -/
def Obligations.ViewsReadHeader : Prop :=
  ∀ s : State, Consistent s →
    (s.msgValid = false →
      exec .msrc s = .next { s with response := some { ok := false, ref := 3, val := 0, ev := 0 } } ∧
      exec .mlen s = .next { s with response := some { ok := false, ref := 3, val := 0, ev := 0 } } ∧
      exec .mdst s = .next { s with response := some { ok := false, ref := 3, val := 0, ev := 0 } }) ∧
    (∀ (a len d : Byte) (rest : List Byte), s.msgValid = true →
      (a :: len :: d :: rest).length = s.msgLen → Holds .msgBuf (a :: len :: d :: rest) s →
      exec .msrc s = .next { s with response := some { ok := true, ref := 0, val := a, ev := 0 } } ∧
      exec .mlen s = .next { s with response := some { ok := true, ref := 0, val := len, ev := 0 } } ∧
      exec .mdst s = .next { s with response := some { ok := true, ref := 0, val := d, ev := 0 } } ∧
      3 ≤ len.toNat ∧ len.toNat ≤ 253 ∧ s.msgLen = len.toNat + 2)

/-- R88: MPAY answers the byte at frame index `3 + i` for `i <= L - 2` (`PB_STRICT` 0, so that
`i = L - 2` gives the checksum byte) or `i <= L - 3` (`PB_STRICT` 1), else the sentinel `0x00` with
`ok = 1`; without a snapshot it is refused with `REF_NOMSG`; nothing else changes. -/
def Obligations.MpayReadsWithinBound : Prop :=
  ∀ (s : State) (i : Byte), Consistent s →
    (s.msgValid = false →
      exec (.mpay i) s = .next { s with response := some { ok := false, ref := 3, val := 0, ev := 0 } }) ∧
    (∀ (bs : List Byte) (len : Byte), s.msgValid = true → bs.length = s.msgLen → Holds .msgBuf bs s →
      bs[1]? = some len →
      (s.cfg.pbStrict = false → i.toNat ≤ len.toNat - 2 →
        ∃ v, bs[3 + i.toNat]? = some v ∧ exec (.mpay i) s = .next (respond v 0 s)) ∧
      (s.cfg.pbStrict = false → len.toNat - 2 < i.toNat → exec (.mpay i) s = .next (respond 0 0 s)) ∧
      (s.cfg.pbStrict = true → i.toNat ≤ len.toNat - 3 →
        ∃ v, bs[3 + i.toNat]? = some v ∧ exec (.mpay i) s = .next (respond v 0 s)) ∧
      (s.cfg.pbStrict = true → len.toNat - 3 < i.toNat → exec (.mpay i) s = .next (respond 0 0 s)))

/-! ### Rules of the whole machine -/

/-- R89, R22: no step changes the snapshot but a TAKE that produced a message, and reset. -/
def Obligations.OnlyTakeReplacesSnapshot : Prop :=
  ∀ s t : State, step s = .next t →
    (t.msgLen = s.msgLen ∧ t.msgValid = s.msgValid ∧
      ∀ k, t.byteAt .msgBuf k = s.byteAt .msgBuf k) ∨
    (∃ w rest, s.inputs = .cmd w :: rest ∧ opField w = 0x5 ∧ Performed 1 0x40 t) ∨
    (∃ rest, s.inputs = .reset :: rest)

/-- R79: a step appends to `Q_tx` only the whole staged frame, only when it was pending, only when
`Elapsed(now, rx_ts) >= T_IDLE`, and only as a POLL or a TRYFLUSH. -/
def Obligations.TransmitOnlyWhenIdle : Prop :=
  ∀ s t : State, step s = .next t →
    t.qTx = s.qTx ∨ (t.qTx = s.qTx.tail ∧ ∃ rest, s.inputs = .send :: rest) ∨
    (s.txPending = true ∧ t.txPending = false ∧ s.cfg.tIdle ≤ elapsed s.cfg s.now s.rxTs ∧
      (∃ w rest, s.inputs = .cmd w :: rest ∧ (opField w = 0x2 ∨ opField w = 0x7)) ∧
      ∃ bs : List Byte, bs.length = s.txLen ∧ Holds .txBuf bs s ∧ t.qTx = s.qTx ++ bs)

/-- R79 over runs: once a byte has been accepted at this moment, nothing is written to the transport as
long as the clock, moving forward only, has not advanced by `T_IDLE`, whatever the host and the transport
do: `Q_tx` only loses bytes. -/
def Obligations.NothingSentWithinIdleTime : Prop :=
  ∀ (k : Nat) (s t : State), Consistent s → s.rxTs = s.now → 0 < s.cfg.tIdle →
    ClockQuiet s.cfg s.now 0 s.inputs → Host.Core.run Sys2Proof.core k s = .next t →
    t.qTx <:+ s.qTx

/-- R15: `echo_rem` changes only by a POLL that discards one byte of `Q_rx`, nothing being pending, by the
flush of a POLL or a TRYFLUSH, which sets it to the number of bytes written, and by reset. -/
def Obligations.EchoCounterChanges : Prop :=
  ∀ s t : State, step s = .next t →
    t.echoRem = s.echoRem ∨
    (t.echoRem + 1 = s.echoRem ∧ s.txPending = false ∧ s.qRx ≠ [] ∧ t.qRx = s.qRx.tail ∧
      t.rxLen = s.rxLen ∧ t.rxTs = s.rxTs ∧ ∃ w rest, s.inputs = .cmd w :: rest ∧ opField w = 0x2) ∨
    (t.echoRem = s.txLen ∧ s.txPending = true ∧ t.txPending = false ∧
      ∃ w rest, s.inputs = .cmd w :: rest ∧ (opField w = 0x2 ∨ opField w = 0x7)) ∨
    (t.echoRem = 0 ∧ ∃ rest, s.inputs = .reset :: rest)

/-- R14, R23: `rx_ts` is only ever written with the clock's present value. -/
def Obligations.TimestampOnlyTakesNow : Prop :=
  ∀ s t : State, Consistent s → step s = .next t → t.rxTs = s.rxTs ∨ t.rxTs = s.now

/-- R4, R9: no step changes the parameters, and only the clock moves the clock. -/
def Obligations.ParametersAndClockAreInputs : Prop :=
  ∀ s t : State, step s = .next t →
    t.cfg = s.cfg ∧ (t.now = s.now ∨ ∃ u rest, s.inputs = .clock u :: rest)

/-- R27, R61, R64, R75, R76: the frame of the receive operations that take no byte from the transport.
INGEST and TAKE leave the transmit side, `echo_rem` and the queues as they were; INGEST leaves the snapshot
too. -/
def Obligations.ReceiveOpsSpareTransmitSide : Prop :=
  ∀ (i : Instr) (b : Byte) (s t : State), (i = .ingest b ∨ i = .take) → exec i s = .next t →
    t.echoRem = s.echoRem ∧ (∀ k, t.byteAt .txBuf k = s.byteAt .txBuf k) ∧ t.txLen = s.txLen ∧
    t.txPending = s.txPending ∧ t.qRx = s.qRx ∧ t.qTx = s.qTx ∧ t.now = s.now ∧
    t.inputs = s.inputs ∧ t.cfg = s.cfg ∧
    (i = .ingest b → (∀ k, t.byteAt .msgBuf k = s.byteAt .msgBuf k) ∧ t.msgLen = s.msgLen ∧
      t.msgValid = s.msgValid) ∧
    (i = .take → ∀ k, t.byteAt .rxBuf k = s.byteAt .rxBuf k)

/-- R61, R27: the frame of POLL. The snapshot, `tx_buf`, `tx_len`, the clock, the inputs and the parameters
stay; `Q_rx` loses its head or was empty; a byte of `rx_buf` changes only at the index the byte was
ingested at, which is the last of the run. -/
def Obligations.PollFrame : Prop :=
  ∀ s t : State, exec .poll s = .next t →
    (∀ k, t.byteAt .msgBuf k = s.byteAt .msgBuf k) ∧ t.msgLen = s.msgLen ∧ t.msgValid = s.msgValid ∧
    (∀ k, t.byteAt .txBuf k = s.byteAt .txBuf k) ∧ t.txLen = s.txLen ∧ t.now = s.now ∧
    t.inputs = s.inputs ∧ t.cfg = s.cfg ∧ t.qRx = s.qRx.tail ∧
    (∀ k, k + 1 ≠ t.rxLen → t.byteAt .rxBuf k = s.byteAt .rxBuf k) ∧
    (s.qRx = [] → ∀ k, t.byteAt .rxBuf k = s.byteAt .rxBuf k)

/-- R34: the pure queries change nothing but the response port, and repeat with the same answer. -/
def Obligations.QueriesChangeNothing : Prop :=
  ∀ (i : Instr) (k : Byte) (s t : State),
    (i = .hasframe ∨ i = .ckvalid ∨ i = .txpend ∨ i = .msrc ∨ i = .mlen ∨ i = .mdst ∨ i = .mpay k) →
    exec i s = .next t → t = { s with response := t.response } ∧ exec i t = .next t

/-- R100: an operation is refused exactly when STAGE's frame does not fit (`ref` 2) or a view operation
finds no snapshot (`ref` 3); then `val` and `ev` are 0 and nothing but the response changes. -/
def Obligations.RefusalsChangeNothing : Prop :=
  ∀ (i : Instr) (s t : State) (r : Response), exec i s = .next t → t.response = some r →
    (r.ok = false ↔
      (∃ src dst data, i = .stage src dst data ∧ s.cfg.txCap < data.length + 4) ∨
      ((i = .msrc ∨ i = .mlen ∨ i = .mdst ∨ ∃ k, i = .mpay k) ∧ s.msgValid = false)) ∧
    (r.ok = false → t = { s with response := some r } ∧ r.val = 0 ∧ r.ev = 0 ∧
      (r.ref = 2 ∨ r.ref = 3) ∧ (r.ref = 2 ↔ ∃ src dst data, i = .stage src dst data)) ∧
    (r.ok = true → r.ref = 0)

/-- R101: bit 7 of the event vector is always 0; a flush event of a POLL comes with neither a discarded
nor an ingested byte. -/
def Obligations.EventVectorForm : Prop :=
  ∀ (i : Instr) (s t : State), 0 < s.cfg.tIdle → exec i s = .next t →
    ∃ r, t.response = some r ∧ r.ev &&& 0x80#8 = 0 ∧
      (r.ev &&& 0x20#8 ≠ 0 → (i = .poll ∨ i = .tryflush) ∧ r.ev = 0x20)

/-- R101, R95: no cause is latched: what an operation does is independent of the response to the one
before. -/
def Obligations.EarlierResponseDoesNotMatter : Prop :=
  ∀ (i : Instr) (s : State) (r : Option Response), exec i { s with response := r } = exec i s

/-- R7, R58 (4): `Elapsed(now, t)` is `(now - t) mod 2^TSW`; an interval shorter than `2^TSW` is measured
exactly, across a wrap of the clock too (R129). -/
def Obligations.ElapsedIsModularDifference : Prop :=
  ∀ (c : Config) (now t d : Nat),
    (elapsed c now t : Int) = ((now : Int) - (t : Int)) % (c.timeRange : Int) ∧
    (d < c.timeRange → elapsed c ((t + d) % c.timeRange) t = d)

/-! ### The two state machines -/

/-- R65: the rows of INGEST and TAKE. -/
def Obligations.ReceiveMachineTransitions : Prop :=
  ∀ (s : State) (b : Byte) (p : RxPhase), Consistent s → rxPhase s = .ok p →
    (∃ t q, exec (.ingest b) s = .next t ∧ rxPhase t = .ok q ∧ q ≠ .empty ∧
      (s.rxLen = 255 ∨ s.cfg.tGap ≤ elapsed s.cfg s.now s.rxTs ∨ p = .empty →
        q = .accumulating ∧ t.rxLen = 1) ∧
      (s.rxLen < 255 → elapsed s.cfg s.now s.rxTs < s.cfg.tGap →
        t.rxLen = s.rxLen + 1 ∧ (p = .completeValid ∨ p = .completeInvalid → q = .accumulating))) ∧
    (∃ t q, exec .take s = .next t ∧ rxPhase t = .ok q ∧
      (p = .completeValid ∨ p = .completeInvalid → q = .empty) ∧
      (p = .empty ∨ p = .accumulating → q = p ∧ t = respond 0 0 s))

/-- R65: every operation but INGEST, POLL and TAKE leaves the receive machine where it is. -/
def Obligations.OtherOpsKeepReceiveMachine : Prop :=
  ∀ (i : Instr) (s t : State), (∀ b, i ≠ .ingest b) → i ≠ .poll → i ≠ .take → exec i s = .next t →
    rxPhase t = rxPhase s ∧ t.rxLen = s.rxLen ∧ t.rxTs = s.rxTs ∧ t.rxPending = s.rxPending ∧
    (∀ k, t.byteAt .rxBuf k = s.byteAt .rxBuf k) ∧ t.msgLen = s.msgLen ∧ t.msgValid = s.msgValid ∧
    (∀ k, t.byteAt .msgBuf k = s.byteAt .msgBuf k) ∧ t.qRx = s.qRx

/-- R78: the transmit path. An accepted STAGE leads to TX_STAGED and a refused one changes nothing; a flush
step leads from TX_STAGED to TX_ECHO when idle and changes nothing otherwise; in TX_ECHO a POLL that
removes a byte counts it down to TX_IDLE. -/
def Obligations.TransmitPathTransitions : Prop :=
  ∀ s : State, Consistent s →
    (∀ src dst data, data.length + 4 ≤ s.cfg.txCap →
      ∃ t, exec (.stage src dst data) s = .next t ∧ txPhase t = .staged ∧ t.echoRem = s.echoRem) ∧
    (∀ src dst data, s.cfg.txCap < data.length + 4 →
      ∃ t, exec (.stage src dst data) s = .next t ∧ txPhase t = txPhase s) ∧
    (∃ t, exec .tryflush s = .next t ∧
      (txPhase s = .staged → s.cfg.tIdle ≤ elapsed s.cfg s.now s.rxTs →
        txPhase t = .echo ∧ t.echoRem = s.txLen) ∧
      (txPhase s = .staged → elapsed s.cfg s.now s.rxTs < s.cfg.tIdle → t = respond 0 0 s) ∧
      (txPhase s ≠ .staged → t = respond 0 0 s)) ∧
    (txPhase s = .echo → s.qRx ≠ [] →
      ∃ t, exec .poll s = .next t ∧ t.echoRem + 1 = s.echoRem ∧
        txPhase t = if s.echoRem = 1 then .idle else .echo)

/-! ### The two ends together -/

/-- R59: what one core stages and flushes, another core (or the same) with an empty receive buffer receives
as a message whose fields are exactly the inputs, for every source, destination and payload of 1 to
`TXCAP - 4` bytes, whenever the bytes arrive with every gap below `T_GAP` and whenever the message is taken. -/
def Obligations.StagedFrameRoundTrips : Prop :=
  ∀ (s r : State) (src dst : Byte) (data : List Byte), Consistent s → Consistent r → 1 ≤ data.length →
    data.length + 4 ≤ s.cfg.txCap → s.cfg.tIdle ≤ elapsed s.cfg s.now s.rxTs → r.rxLen = 0 →
    ∃ (s1 s2 : State) (wire : List Byte),
      exec (.stage src dst data) s = .next s1 ∧ exec .tryflush s1 = .next s2 ∧
      s2.qTx = s.qTx ++ wire ∧ wire.length = data.length + 4 ∧
      ∀ timed : List (Nat × Byte), timed.map Prod.snd = wire → GapsBelow r.cfg timed →
        ∃ r1, ingestAt timed r = .next r1 ∧ r1.rxPending = true ∧
          ∀ now : Nat, ∃ r2, exec .take (clockTo now r1) = .next r2 ∧ Performed 1 0x40 r2 ∧
            exec .msrc r2 = .next (respond src 0 r2) ∧
            exec .mlen r2 = .next (respond (BitVec.ofNat 8 (data.length + 2)) 0 r2) ∧
            exec .mdst r2 = .next (respond dst 0 r2) ∧
            ∀ k v, data[k]? = some v → exec (.mpay (BitVec.ofNat 8 k)) r2 = .next (respond v 0 r2)
end

