-- ==== Sys2Proof/Laws/State.lean ====
section
/-! SUPPORT. What each named update does to each field of State, so that no later proof unfolds a record
update: one lemma for each field of each update. -/

namespace Sys2Proof.Machine

/-! ### The parameters (R4) -/

theorem rxOvf_of_legal {c : Config} (h : c.legal) : c.rxOvf = 254 := by
  have h1 := h.1
  have h2 := h.2.1
  omega

/-! ### clearRx (R23) -/

@[simp] theorem clearRx_rxBuf (s : State) : (clearRx s).rxBuf = s.rxBuf := rfl
@[simp] theorem clearRx_rxLen (s : State) : (clearRx s).rxLen = 0 := rfl
@[simp] theorem clearRx_rxPending (s : State) : (clearRx s).rxPending = false := rfl
@[simp] theorem clearRx_rxTs (s : State) : (clearRx s).rxTs = s.now := rfl
@[simp] theorem clearRx_echoRem (s : State) : (clearRx s).echoRem = s.echoRem := rfl
@[simp] theorem clearRx_txBuf (s : State) : (clearRx s).txBuf = s.txBuf := rfl
@[simp] theorem clearRx_txLen (s : State) : (clearRx s).txLen = s.txLen := rfl
@[simp] theorem clearRx_txPending (s : State) : (clearRx s).txPending = s.txPending := rfl
@[simp] theorem clearRx_msgBuf (s : State) : (clearRx s).msgBuf = s.msgBuf := rfl
@[simp] theorem clearRx_msgLen (s : State) : (clearRx s).msgLen = s.msgLen := rfl
@[simp] theorem clearRx_msgValid (s : State) : (clearRx s).msgValid = s.msgValid := rfl
@[simp] theorem clearRx_qRx (s : State) : (clearRx s).qRx = s.qRx := rfl
@[simp] theorem clearRx_qTx (s : State) : (clearRx s).qTx = s.qTx := rfl
@[simp] theorem clearRx_now (s : State) : (clearRx s).now = s.now := rfl
@[simp] theorem clearRx_response (s : State) : (clearRx s).response = s.response := rfl
@[simp] theorem clearRx_inputs (s : State) : (clearRx s).inputs = s.inputs := rfl
@[simp] theorem clearRx_cfg (s : State) : (clearRx s).cfg = s.cfg := rfl

/-! ### respond (R51) -/

@[simp] theorem respond_rxBuf (v : Byte) (e : BitVec 8) (s : State) : (respond v e s).rxBuf = s.rxBuf := rfl
@[simp] theorem respond_rxLen (v : Byte) (e : BitVec 8) (s : State) : (respond v e s).rxLen = s.rxLen := rfl
@[simp] theorem respond_rxPending (v : Byte) (e : BitVec 8) (s : State) : (respond v e s).rxPending = s.rxPending := rfl
@[simp] theorem respond_rxTs (v : Byte) (e : BitVec 8) (s : State) : (respond v e s).rxTs = s.rxTs := rfl
@[simp] theorem respond_echoRem (v : Byte) (e : BitVec 8) (s : State) : (respond v e s).echoRem = s.echoRem := rfl
@[simp] theorem respond_txBuf (v : Byte) (e : BitVec 8) (s : State) : (respond v e s).txBuf = s.txBuf := rfl
@[simp] theorem respond_txLen (v : Byte) (e : BitVec 8) (s : State) : (respond v e s).txLen = s.txLen := rfl
@[simp] theorem respond_txPending (v : Byte) (e : BitVec 8) (s : State) : (respond v e s).txPending = s.txPending := rfl
@[simp] theorem respond_msgBuf (v : Byte) (e : BitVec 8) (s : State) : (respond v e s).msgBuf = s.msgBuf := rfl
@[simp] theorem respond_msgLen (v : Byte) (e : BitVec 8) (s : State) : (respond v e s).msgLen = s.msgLen := rfl
@[simp] theorem respond_msgValid (v : Byte) (e : BitVec 8) (s : State) : (respond v e s).msgValid = s.msgValid := rfl
@[simp] theorem respond_qRx (v : Byte) (e : BitVec 8) (s : State) : (respond v e s).qRx = s.qRx := rfl
@[simp] theorem respond_qTx (v : Byte) (e : BitVec 8) (s : State) : (respond v e s).qTx = s.qTx := rfl
@[simp] theorem respond_now (v : Byte) (e : BitVec 8) (s : State) : (respond v e s).now = s.now := rfl
@[simp] theorem respond_response (v : Byte) (e : BitVec 8) (s : State) : (respond v e s).response = some { ok := true, ref := 0, val := v, ev := e } := rfl
@[simp] theorem respond_inputs (v : Byte) (e : BitVec 8) (s : State) : (respond v e s).inputs = s.inputs := rfl
@[simp] theorem respond_cfg (v : Byte) (e : BitVec 8) (s : State) : (respond v e s).cfg = s.cfg := rfl

/-! ### refuse (R100) -/

@[simp] theorem refuse_rxBuf (r : BitVec 2) (s : State) : (refuse r s).rxBuf = s.rxBuf := rfl
@[simp] theorem refuse_rxLen (r : BitVec 2) (s : State) : (refuse r s).rxLen = s.rxLen := rfl
@[simp] theorem refuse_rxPending (r : BitVec 2) (s : State) : (refuse r s).rxPending = s.rxPending := rfl
@[simp] theorem refuse_rxTs (r : BitVec 2) (s : State) : (refuse r s).rxTs = s.rxTs := rfl
@[simp] theorem refuse_echoRem (r : BitVec 2) (s : State) : (refuse r s).echoRem = s.echoRem := rfl
@[simp] theorem refuse_txBuf (r : BitVec 2) (s : State) : (refuse r s).txBuf = s.txBuf := rfl
@[simp] theorem refuse_txLen (r : BitVec 2) (s : State) : (refuse r s).txLen = s.txLen := rfl
@[simp] theorem refuse_txPending (r : BitVec 2) (s : State) : (refuse r s).txPending = s.txPending := rfl
@[simp] theorem refuse_msgBuf (r : BitVec 2) (s : State) : (refuse r s).msgBuf = s.msgBuf := rfl
@[simp] theorem refuse_msgLen (r : BitVec 2) (s : State) : (refuse r s).msgLen = s.msgLen := rfl
@[simp] theorem refuse_msgValid (r : BitVec 2) (s : State) : (refuse r s).msgValid = s.msgValid := rfl
@[simp] theorem refuse_qRx (r : BitVec 2) (s : State) : (refuse r s).qRx = s.qRx := rfl
@[simp] theorem refuse_qTx (r : BitVec 2) (s : State) : (refuse r s).qTx = s.qTx := rfl
@[simp] theorem refuse_now (r : BitVec 2) (s : State) : (refuse r s).now = s.now := rfl
@[simp] theorem refuse_response (r : BitVec 2) (s : State) : (refuse r s).response = some { ok := false, ref := r, val := 0, ev := 0 } := rfl
@[simp] theorem refuse_inputs (r : BitVec 2) (s : State) : (refuse r s).inputs = s.inputs := rfl
@[simp] theorem refuse_cfg (r : BitVec 2) (s : State) : (refuse r s).cfg = s.cfg := rfl

/-! ### clockTo (R7) -/

@[simp] theorem clockTo_rxBuf (t : Nat) (s : State) : (clockTo t s).rxBuf = s.rxBuf := rfl
@[simp] theorem clockTo_rxLen (t : Nat) (s : State) : (clockTo t s).rxLen = s.rxLen := rfl
@[simp] theorem clockTo_rxPending (t : Nat) (s : State) : (clockTo t s).rxPending = s.rxPending := rfl
@[simp] theorem clockTo_rxTs (t : Nat) (s : State) : (clockTo t s).rxTs = s.rxTs := rfl
@[simp] theorem clockTo_echoRem (t : Nat) (s : State) : (clockTo t s).echoRem = s.echoRem := rfl
@[simp] theorem clockTo_txBuf (t : Nat) (s : State) : (clockTo t s).txBuf = s.txBuf := rfl
@[simp] theorem clockTo_txLen (t : Nat) (s : State) : (clockTo t s).txLen = s.txLen := rfl
@[simp] theorem clockTo_txPending (t : Nat) (s : State) : (clockTo t s).txPending = s.txPending := rfl
@[simp] theorem clockTo_msgBuf (t : Nat) (s : State) : (clockTo t s).msgBuf = s.msgBuf := rfl
@[simp] theorem clockTo_msgLen (t : Nat) (s : State) : (clockTo t s).msgLen = s.msgLen := rfl
@[simp] theorem clockTo_msgValid (t : Nat) (s : State) : (clockTo t s).msgValid = s.msgValid := rfl
@[simp] theorem clockTo_qRx (t : Nat) (s : State) : (clockTo t s).qRx = s.qRx := rfl
@[simp] theorem clockTo_qTx (t : Nat) (s : State) : (clockTo t s).qTx = s.qTx := rfl
@[simp] theorem clockTo_now (t : Nat) (s : State) : (clockTo t s).now = t % s.cfg.timeRange := rfl
@[simp] theorem clockTo_response (t : Nat) (s : State) : (clockTo t s).response = s.response := rfl
@[simp] theorem clockTo_inputs (t : Nat) (s : State) : (clockTo t s).inputs = s.inputs := rfl
@[simp] theorem clockTo_cfg (t : Nat) (s : State) : (clockTo t s).cfg = s.cfg := rfl

/-! ### transportReceive (R37) -/

@[simp] theorem transportReceive_rxBuf (b : Byte) (s : State) : (transportReceive b s).rxBuf = s.rxBuf := rfl
@[simp] theorem transportReceive_rxLen (b : Byte) (s : State) : (transportReceive b s).rxLen = s.rxLen := rfl
@[simp] theorem transportReceive_rxPending (b : Byte) (s : State) : (transportReceive b s).rxPending = s.rxPending := rfl
@[simp] theorem transportReceive_rxTs (b : Byte) (s : State) : (transportReceive b s).rxTs = s.rxTs := rfl
@[simp] theorem transportReceive_echoRem (b : Byte) (s : State) : (transportReceive b s).echoRem = s.echoRem := rfl
@[simp] theorem transportReceive_txBuf (b : Byte) (s : State) : (transportReceive b s).txBuf = s.txBuf := rfl
@[simp] theorem transportReceive_txLen (b : Byte) (s : State) : (transportReceive b s).txLen = s.txLen := rfl
@[simp] theorem transportReceive_txPending (b : Byte) (s : State) : (transportReceive b s).txPending = s.txPending := rfl
@[simp] theorem transportReceive_msgBuf (b : Byte) (s : State) : (transportReceive b s).msgBuf = s.msgBuf := rfl
@[simp] theorem transportReceive_msgLen (b : Byte) (s : State) : (transportReceive b s).msgLen = s.msgLen := rfl
@[simp] theorem transportReceive_msgValid (b : Byte) (s : State) : (transportReceive b s).msgValid = s.msgValid := rfl
@[simp] theorem transportReceive_qRx (b : Byte) (s : State) : (transportReceive b s).qRx = s.qRx ++ [b] := rfl
@[simp] theorem transportReceive_qTx (b : Byte) (s : State) : (transportReceive b s).qTx = s.qTx := rfl
@[simp] theorem transportReceive_now (b : Byte) (s : State) : (transportReceive b s).now = s.now := rfl
@[simp] theorem transportReceive_response (b : Byte) (s : State) : (transportReceive b s).response = s.response := rfl
@[simp] theorem transportReceive_inputs (b : Byte) (s : State) : (transportReceive b s).inputs = s.inputs := rfl
@[simp] theorem transportReceive_cfg (b : Byte) (s : State) : (transportReceive b s).cfg = s.cfg := rfl

/-! ### transportSend (R38) -/

@[simp] theorem transportSend_rxBuf (s : State) : (transportSend s).rxBuf = s.rxBuf := rfl
@[simp] theorem transportSend_rxLen (s : State) : (transportSend s).rxLen = s.rxLen := rfl
@[simp] theorem transportSend_rxPending (s : State) : (transportSend s).rxPending = s.rxPending := rfl
@[simp] theorem transportSend_rxTs (s : State) : (transportSend s).rxTs = s.rxTs := rfl
@[simp] theorem transportSend_echoRem (s : State) : (transportSend s).echoRem = s.echoRem := rfl
@[simp] theorem transportSend_txBuf (s : State) : (transportSend s).txBuf = s.txBuf := rfl
@[simp] theorem transportSend_txLen (s : State) : (transportSend s).txLen = s.txLen := rfl
@[simp] theorem transportSend_txPending (s : State) : (transportSend s).txPending = s.txPending := rfl
@[simp] theorem transportSend_msgBuf (s : State) : (transportSend s).msgBuf = s.msgBuf := rfl
@[simp] theorem transportSend_msgLen (s : State) : (transportSend s).msgLen = s.msgLen := rfl
@[simp] theorem transportSend_msgValid (s : State) : (transportSend s).msgValid = s.msgValid := rfl
@[simp] theorem transportSend_qRx (s : State) : (transportSend s).qRx = s.qRx := rfl
@[simp] theorem transportSend_qTx (s : State) : (transportSend s).qTx = s.qTx.tail := rfl
@[simp] theorem transportSend_now (s : State) : (transportSend s).now = s.now := rfl
@[simp] theorem transportSend_response (s : State) : (transportSend s).response = s.response := rfl
@[simp] theorem transportSend_inputs (s : State) : (transportSend s).inputs = s.inputs := rfl
@[simp] theorem transportSend_cfg (s : State) : (transportSend s).cfg = s.cfg := rfl

/-! ### hardwareReset (R115, R116) -/

@[simp] theorem hardwareReset_rxBuf (s : State) : (hardwareReset s).rxBuf = [] := rfl
@[simp] theorem hardwareReset_rxLen (s : State) : (hardwareReset s).rxLen = 0 := rfl
@[simp] theorem hardwareReset_rxPending (s : State) : (hardwareReset s).rxPending = false := rfl
@[simp] theorem hardwareReset_rxTs (s : State) : (hardwareReset s).rxTs = s.now % s.cfg.timeRange := rfl
@[simp] theorem hardwareReset_echoRem (s : State) : (hardwareReset s).echoRem = 0 := rfl
@[simp] theorem hardwareReset_txBuf (s : State) : (hardwareReset s).txBuf = [] := rfl
@[simp] theorem hardwareReset_txLen (s : State) : (hardwareReset s).txLen = 0 := rfl
@[simp] theorem hardwareReset_txPending (s : State) : (hardwareReset s).txPending = false := rfl
@[simp] theorem hardwareReset_msgBuf (s : State) : (hardwareReset s).msgBuf = [] := rfl
@[simp] theorem hardwareReset_msgLen (s : State) : (hardwareReset s).msgLen = 0 := rfl
@[simp] theorem hardwareReset_msgValid (s : State) : (hardwareReset s).msgValid = false := rfl
@[simp] theorem hardwareReset_qRx (s : State) : (hardwareReset s).qRx = s.qRx := rfl
@[simp] theorem hardwareReset_qTx (s : State) : (hardwareReset s).qTx = s.qTx := rfl
@[simp] theorem hardwareReset_now (s : State) : (hardwareReset s).now = s.now := rfl
@[simp] theorem hardwareReset_response (s : State) : (hardwareReset s).response = none := rfl
@[simp] theorem hardwareReset_inputs (s : State) : (hardwareReset s).inputs = s.inputs := rfl
@[simp] theorem hardwareReset_cfg (s : State) : (hardwareReset s).cfg = s.cfg := rfl

/-! ### setMem (R35) -/

@[simp] theorem setMem_rxLen (m : Memory) (sp : Space) (s : State) : (s.setMem m sp).rxLen = s.rxLen := by
  cases sp <;> rfl
@[simp] theorem setMem_rxPending (m : Memory) (sp : Space) (s : State) : (s.setMem m sp).rxPending = s.rxPending := by
  cases sp <;> rfl
@[simp] theorem setMem_rxTs (m : Memory) (sp : Space) (s : State) : (s.setMem m sp).rxTs = s.rxTs := by
  cases sp <;> rfl
@[simp] theorem setMem_echoRem (m : Memory) (sp : Space) (s : State) : (s.setMem m sp).echoRem = s.echoRem := by
  cases sp <;> rfl
@[simp] theorem setMem_txLen (m : Memory) (sp : Space) (s : State) : (s.setMem m sp).txLen = s.txLen := by
  cases sp <;> rfl
@[simp] theorem setMem_txPending (m : Memory) (sp : Space) (s : State) : (s.setMem m sp).txPending = s.txPending := by
  cases sp <;> rfl
@[simp] theorem setMem_msgLen (m : Memory) (sp : Space) (s : State) : (s.setMem m sp).msgLen = s.msgLen := by
  cases sp <;> rfl
@[simp] theorem setMem_msgValid (m : Memory) (sp : Space) (s : State) : (s.setMem m sp).msgValid = s.msgValid := by
  cases sp <;> rfl
@[simp] theorem setMem_qRx (m : Memory) (sp : Space) (s : State) : (s.setMem m sp).qRx = s.qRx := by
  cases sp <;> rfl
@[simp] theorem setMem_qTx (m : Memory) (sp : Space) (s : State) : (s.setMem m sp).qTx = s.qTx := by
  cases sp <;> rfl
@[simp] theorem setMem_now (m : Memory) (sp : Space) (s : State) : (s.setMem m sp).now = s.now := by
  cases sp <;> rfl
@[simp] theorem setMem_response (m : Memory) (sp : Space) (s : State) : (s.setMem m sp).response = s.response := by
  cases sp <;> rfl
@[simp] theorem setMem_inputs (m : Memory) (sp : Space) (s : State) : (s.setMem m sp).inputs = s.inputs := by
  cases sp <;> rfl
@[simp] theorem setMem_cfg (m : Memory) (sp : Space) (s : State) : (s.setMem m sp).cfg = s.cfg := by
  cases sp <;> rfl

@[simp] theorem setMem_mem (m : Memory) (sp : Space) (s : State) : (s.setMem m sp).mem sp = m := by
  cases sp <;> rfl

theorem setMem_mem_of_ne (m : Memory) {sp sp' : Space} (h : sp' ≠ sp) (s : State) :
    (s.setMem m sp).mem sp' = s.mem sp' := by
  cases sp <;> cases sp' <;> first | rfl | exact absurd rfl h

@[simp] theorem setMem_extent (m : Memory) (sp sp' : Space) (s : State) :
    (s.setMem m sp).extent sp' = s.extent sp' := by
  cases sp <;> rfl

@[simp] theorem setMem_capacity (m : Memory) (sp sp' : Space) (s : State) :
    (s.setMem m sp).capacity sp' = s.capacity sp' := by
  cases sp <;> cases sp' <;> rfl

/-! ### The buffers under the updates that touch none -/

@[simp] theorem clearRx_byteAt (s : State) (sp : Space) (k : Nat) :
    (clearRx s).byteAt sp k = s.byteAt sp k := by cases sp <;> rfl

@[simp] theorem respond_byteAt (v : Byte) (e : BitVec 8) (s : State) (sp : Space) (k : Nat) :
    (respond v e s).byteAt sp k = s.byteAt sp k := by cases sp <;> rfl

@[simp] theorem refuse_byteAt (r : BitVec 2) (s : State) (sp : Space) (k : Nat) :
    (refuse r s).byteAt sp k = s.byteAt sp k := by cases sp <;> rfl

@[simp] theorem clockTo_byteAt (t : Nat) (s : State) (sp : Space) (k : Nat) :
    (clockTo t s).byteAt sp k = s.byteAt sp k := by cases sp <;> rfl

@[simp] theorem transportReceive_byteAt (b : Byte) (s : State) (sp : Space) (k : Nat) :
    (transportReceive b s).byteAt sp k = s.byteAt sp k := by cases sp <;> rfl

@[simp] theorem transportSend_byteAt (s : State) (sp : Space) (k : Nat) :
    (transportSend s).byteAt sp k = s.byteAt sp k := by cases sp <;> rfl

@[simp] theorem hardwareReset_byteAt (s : State) (sp : Space) (k : Nat) :
    (hardwareReset s).byteAt sp k = none := by cases sp <;> rfl

theorem State.byteAt_congr {s t : State} {sp : Space} (h : t.mem sp = s.mem sp) (k : Nat) :
    t.byteAt sp k = s.byteAt sp k := by
  unfold State.byteAt; rw [h]

end Sys2Proof.Machine
end

