-- ==== Sys2Proof/Laws/Memory.lean ====
section
/-! SUPPORT. The laws of the buffers: read after write, other indices alone, canonical form kept, and one
lemma for each shared access that says everything it can do. -/

namespace Sys2Proof.Machine

/-! ### One index -/

@[simp] theorem Memory.get_set_same (m : Memory) (i : Nat) (v : Byte) : (m.set i v).get i = some v := by
  induction m with
  | nil => simp [Memory.set, Memory.get]
  | cons c rest ih =>
    obtain ⟨a, w⟩ := c
    simp only [Memory.set]
    split
    · simp [Memory.get]
    · split
      · simp [Memory.get]
      · rename_i h1 h2
        simp [Memory.get, h2, ih]

theorem Memory.get_set_other (m : Memory) {i j : Nat} (v : Byte) (h : j ≠ i) :
    (m.set i v).get j = m.get j := by
  induction m with
  | nil => simp [Memory.set, Memory.get, h]
  | cons c rest ih =>
    obtain ⟨a, w⟩ := c
    simp only [Memory.set]
    split
    · simp [Memory.get, h]
    · split
      · rename_i h1 h2
        subst h2
        simp [Memory.get, h]
      · simp [Memory.get, ih]

theorem Memory.mem_set {m : Memory} {i : Nat} {v : Byte} {c : Host.Cell} (h : c ∈ m.set i v) :
    c = (i, v) ∨ c ∈ m := by
  induction m with
  | nil => simpa [Memory.set] using h
  | cons d rest ih =>
    obtain ⟨a, w⟩ := d
    simp only [Memory.set] at h
    split at h
    · simpa using h
    · split at h
      · rcases List.mem_cons.1 h with h | h <;> simp [h]
      · rcases List.mem_cons.1 h with h | h
        · simp [h]
        · rcases ih h with h | h <;> simp [h]

/-- A write inside the buffer keeps the canonical form. -/
theorem Memory.wf_set {cap : Nat} {m : Memory} {i : Nat} (v : Byte) (hm : Memory.wf cap m) (hi : i < cap) :
    Memory.wf cap (m.set i v) := by
  refine ⟨?_, fun c hc => ?_⟩
  · obtain ⟨hp, -⟩ := hm
    induction m with
    | nil => simp [Memory.set]
    | cons d rest ih =>
      obtain ⟨a, w⟩ := d
      obtain ⟨hd, hr⟩ := List.pairwise_cons.1 hp
      simp only [Memory.set]
      split
      · rename_i hlt
        refine List.pairwise_cons.2 ⟨fun c hc => ?_, hp⟩
        rcases List.mem_cons.1 hc with rfl | hc
        · exact hlt
        · exact Nat.lt_trans hlt (hd c hc)
      · split
        · rename_i h1 h2
          subst h2
          exact List.pairwise_cons.2 ⟨hd, hr⟩
        · refine List.pairwise_cons.2 ⟨fun c hc => ?_, ih hr⟩
          rcases Memory.mem_set hc with rfl | hc
          · show a < i
            omega
          · exact hd c hc
  · rcases Memory.mem_set hc with rfl | hc
    · exact hi
    · exact hm.2 c hc

/-- A write through `setMem` seen through the read of one byte. -/
theorem byteAt_setMem_set (s : State) (sp sp' : Space) (i k : Nat) (v : Byte) :
    (s.setMem ((s.mem sp).set i v) sp).byteAt sp' k =
      if sp' = sp ∧ k = i then some v else s.byteAt sp' k := by
  unfold State.byteAt
  by_cases h : sp' = sp
  · subst h
    by_cases hk : k = i
    · subst hk; simp
    · simp [hk, Memory.get_set_other _ _ hk]
  · simp [h, setMem_mem_of_ne _ h]

/-! ### Reads -/

theorem readByte_of_byteAt {s : State} {sp : Space} {i : Nat} {v : Byte} (hi : i < s.capacity sp)
    (hx : i < s.extent sp) (h : s.byteAt sp i = some v) : readByte sp i s = .ok v := by
  simp [readByte, hi, hx, h]

/-- All a read of one byte can do: it answers only inside the buffer, below its length register. -/
theorem readByte_eq_ok {s : State} {sp : Space} {i : Nat} {v : Byte} :
    readByte sp i s = .ok v ↔ i < s.capacity sp ∧ i < s.extent sp ∧ s.byteAt sp i = some v := by
  constructor
  · intro h
    unfold readByte at h
    split at h
    · rename_i hi
      split at h
      · rename_i hx
        split at h
        · rename_i w hw
          injection h with h
          exact ⟨hi, hx, h ▸ hw⟩
        · cases h
      · cases h
    · cases h
  · rintro ⟨hi, hx, h⟩
    exact readByte_of_byteAt hi hx h

/-- A read of `n` written bytes from index `i`, inside the buffer and below its length register, answers them
in order. -/
theorem readBytes_eq_ok {s : State} {sp : Space} (bs : List Byte) :
    ∀ i, i + bs.length ≤ s.capacity sp → i + bs.length ≤ s.extent sp → (∀ k, k < bs.length → s.byteAt sp (i + k) = bs[k]?) →
      readBytes sp s i bs.length = .ok bs := by
  induction bs with
  | nil => intro i _ _ _; rfl
  | cons b bs ih =>
    intro i hcap hext h
    have h0 : readByte sp i s = .ok b :=
      readByte_of_byteAt (by simp at hcap; omega) (by simp at hext; omega) (by simpa using h 0 (by simp))
    have hr : readBytes sp s (i + 1) bs.length = .ok bs := by
      refine ih (i + 1) (by simp at hcap; omega) (by simp at hext; omega) fun k hk => ?_
      have := h (k + 1) (by simpa using hk)
      simpa [Nat.add_assoc, Nat.add_comm 1 k] using this
    simp [readBytes, h0, hr]

/-- The bytes a buffer holds are what a read from index 0 answers. -/
theorem readBytes_of_holds {s : State} {sp : Space} {bs : List Byte} (hcap : bs.length ≤ s.capacity sp)
    (hext : bs.length ≤ s.extent sp) (h : Holds sp bs s) : readBytes sp s 0 bs.length = .ok bs :=
  readBytes_eq_ok bs 0 (by simpa using hcap) (by simpa using hext) (fun k hk => by simpa using h k hk)

/-- What a successful read says about the buffer. -/
theorem readBytes_spec {s : State} {sp : Space} :
    ∀ (n i : Nat) {bs : List Byte}, readBytes sp s i n = .ok bs →
      bs.length = n ∧ ∀ k, k < n → s.byteAt sp (i + k) = bs[k]? := by
  intro n
  induction n with
  | zero =>
    intro i bs h
    simp only [readBytes] at h
    injection h with h
    subst h
    exact ⟨rfl, fun k hk => absurd hk (Nat.not_lt_zero k)⟩
  | succ n ih =>
    intro i bs h
    simp only [readBytes] at h
    split at h
    · cases h
    · rename_i b hb
      split at h
      · cases h
      · rename_i rest hrest
        injection h with h
        subst h
        obtain ⟨hlen, hk⟩ := ih (i + 1) hrest
        refine ⟨by simp [hlen], fun k hkn => ?_⟩
        cases k with
        | zero => simpa using (readByte_eq_ok.1 hb).2.2
        | succ k =>
          have := hk k (by omega)
          simpa [Nat.add_assoc, Nat.add_comm 1 k] using this

/-- A byte a buffer holds below its length register is what a read of it answers. -/
theorem readByte_of_holds {s : State} {sp : Space} {bs : List Byte} {k : Nat} {v : Byte}
    (hcap : bs.length ≤ s.capacity sp) (hext : bs.length ≤ s.extent sp) (h : Holds sp bs s)
    (hk : bs[k]? = some v) : readByte sp k s = .ok v := by
  have hlt : k < bs.length := (List.getElem?_eq_some_iff.1 hk).1
  exact readByte_of_byteAt (Nat.lt_of_lt_of_le hlt hcap) (Nat.lt_of_lt_of_le hlt hext) ((h k hlt).trans hk)

/-- The written bytes of a buffer form a list. -/
theorem exists_holds_of_written {s : State} {sp : Space} {n : Nat} (h : Written sp n s) :
    ∃ bs : List Byte, bs.length = n ∧ Holds sp bs s := by
  induction n with
  | zero => exact ⟨[], rfl, fun k hk => absurd hk (Nat.not_lt_zero k)⟩
  | succ n ih =>
    obtain ⟨bs, hlen, hb⟩ := ih (fun k hk => h k (by omega))
    obtain ⟨v, hv⟩ := Option.isSome_iff_exists.1 (h n (by omega))
    refine ⟨bs ++ [v], by simp [hlen], fun k hk => ?_⟩
    rcases Nat.lt_or_ge k bs.length with hk' | hk'
    · rw [hb k hk', List.getElem?_append_left hk']
    · have : k = n := by simp at hk; omega
      subst this
      rw [hv, ← hlen]
      simp

theorem Holds.written {s : State} {sp : Space} {bs : List Byte} (h : Holds sp bs s) :
    Written sp bs.length s := by
  intro k hk
  rw [h k hk]
  simp [hk]

theorem Holds.unique {s : State} {sp : Space} {bs cs : List Byte} (hb : Holds sp bs s) (hc : Holds sp cs s)
    (hl : bs.length = cs.length) : bs = cs := by
  apply List.ext_getElem? fun k => ?_
  by_cases hk : k < bs.length
  · rw [← hb k hk, ← hc k (hl ▸ hk)]
  · simp [List.getElem?_eq_none (Nat.le_of_not_lt hk),
      List.getElem?_eq_none (hl ▸ Nat.le_of_not_lt hk)]

theorem Holds.congr {s t : State} {sp : Space} {bs : List Byte} (h : Holds sp bs s)
    (ht : ∀ k, t.byteAt sp k = s.byteAt sp k) : Holds sp bs t :=
  fun k hk => (ht k).trans (h k hk)

/-! ### Writes -/

/-- All a write of bytes from index `i` can do: inside the buffer it answers a state that differs only in
those bytes, and the canonical form is kept. -/
theorem writeBytes_spec {sp : Space} (bs : List Byte) :
    ∀ (i : Nat) (s : State), i + bs.length ≤ s.capacity sp →
      ∃ m, writeBytes sp i bs s = .ok (s.setMem m sp) ∧
        (∀ sp' k, (s.setMem m sp).byteAt sp' k =
          if sp' = sp ∧ i ≤ k ∧ k < i + bs.length then bs[k - i]? else s.byteAt sp' k) ∧
        (Memory.wf (s.capacity sp) (s.mem sp) → Memory.wf (s.capacity sp) m) := by
  induction bs with
  | nil =>
    intro i s _
    refine ⟨s.mem sp, ?_, fun sp' k => ?_, id⟩
    · cases sp <;> rfl
    · have hs : s.setMem (s.mem sp) sp = s := by cases sp <;> rfl
      rw [hs, if_neg (by simp only [List.length_nil]; omega)]
  | cons b bs ih =>
    intro i s hcap
    have hi : i < s.capacity sp := by simp at hcap; omega
    obtain ⟨m, hw, hb, hwf⟩ := ih (i + 1) (s.setMem ((s.mem sp).set i b) sp) (by
      simp at hcap ⊢; omega)
    have hset : (s.setMem ((s.mem sp).set i b) sp).setMem m sp = s.setMem m sp := by cases sp <;> rfl
    rw [hset] at hw hb
    refine ⟨m, ?_, fun sp' k => ?_, fun h => ?_⟩
    · simp [writeBytes, writeByte, hi, hw]
    · rw [hb sp' k, byteAt_setMem_set]
      by_cases hsp : sp' = sp
      · subst hsp
        by_cases hk : k = i
        · subst hk; simp
        · by_cases hlt : i < k
          · obtain ⟨d, rfl⟩ : ∃ d, k = i + 1 + d := ⟨k - (i + 1), by omega⟩
            have e1 : i + 1 + d - (i + 1) = d := by omega
            have e2 : i + 1 + d - i = d + 1 := by omega
            by_cases hd : d < bs.length
            · rw [if_pos ⟨rfl, by omega, by omega⟩, if_pos ⟨rfl, by omega, by simp; omega⟩, e1, e2]
              simp
            · rw [if_neg (by omega), if_neg (by omega), if_neg (by simp; omega)]
          · rw [if_neg (by omega), if_neg (by omega), if_neg (by omega)]
      · simp [hsp]
    · simp only [setMem_capacity, setMem_mem] at hwf
      exact hwf (Memory.wf_set b h hi)

end Sys2Proof.Machine
end

