-- ==== Sys2Proof/Laws/Time.lean ====
section
/-! SUPPORT. The laws of `Elapsed` (R7): the only modular arithmetic of the hardware (R58). -/

namespace Sys2Proof.Machine

theorem timeRange_pos (c : Config) : 0 < c.timeRange := Nat.two_pow_pos c.tsw

theorem elapsed_lt (c : Config) (now t : Nat) : elapsed c now t < c.timeRange :=
  Nat.mod_lt _ (timeRange_pos c)

/-- No time passes within an operation (R135). -/
@[simp] theorem elapsed_self (c : Config) (t : Nat) : elapsed c t t = 0 := by
  unfold elapsed
  have hR := timeRange_pos c
  have hm := Nat.mod_lt t hR
  have hd := Nat.div_add_mod t c.timeRange
  have e : t + (c.timeRange - t % c.timeRange) = c.timeRange * (t / c.timeRange + 1) := by
    rw [Nat.mul_add, Nat.mul_one]; omega
  rw [e, Nat.mul_mod_right]

/-- Only the clock's value modulo its range matters. -/
theorem elapsed_mod_now (c : Config) (now t : Nat) :
    elapsed c (now % c.timeRange) t = elapsed c now t := by
  unfold elapsed
  rw [Nat.mod_add_mod]

theorem elapsed_mod_ts (c : Config) (now t : Nat) :
    elapsed c now (t % c.timeRange) = elapsed c now t := by
  unfold elapsed
  rw [Nat.mod_mod]

/-- Elapsed times add up modulo the range. -/
theorem elapsed_add (c : Config) (a b t : Nat) :
    (elapsed c a b + elapsed c b t) % c.timeRange = elapsed c a t := by
  unfold elapsed
  have hR := timeRange_pos c
  have hb := Nat.mod_lt b hR
  have ht := Nat.mod_lt t hR
  have hd := Nat.div_add_mod b c.timeRange
  rw [← Nat.add_mod]
  have e : a + (c.timeRange - b % c.timeRange) + (b + (c.timeRange - t % c.timeRange)) =
      a + (c.timeRange - t % c.timeRange) + c.timeRange * (b / c.timeRange + 1) := by
    rw [Nat.mul_add, Nat.mul_one]; omega
  rw [e, Nat.add_mul_mod_self_left]

/-- From a moment no earlier than `b` and seen from `t0`, the time since `b` is the difference. -/
theorem elapsed_between (c : Config) {a b t0 : Nat} (h : elapsed c b t0 ≤ elapsed c a t0) :
    elapsed c a b = elapsed c a t0 - elapsed c b t0 := by
  have hadd := elapsed_add c a b t0
  have h1 := elapsed_lt c a b
  have h2 := elapsed_lt c b t0
  have h3 := elapsed_lt c a t0
  rcases Nat.lt_or_ge (elapsed c a b + elapsed c b t0) c.timeRange with hlt | hge
  · rw [Nat.mod_eq_of_lt hlt] at hadd; omega
  · rw [Nat.mod_eq_sub_mod hge, Nat.mod_eq_of_lt (by omega)] at hadd; omega

/-- Right after an accepted byte the idle test fails (R61 corner case 3). -/
theorem idleSince_now {s : State} (h : 0 < s.cfg.tIdle) : s.idleSince s.now = false := by
  simp [State.idleSince]; omega

end Sys2Proof.Machine
end

