-- ==== Sys2Proof/Laws/Frame.lean ====
section
/-! SUPPORT. The checksum and the derived predicates seen as facts about a list of bytes (R20, R21, R47). -/

namespace Sys2Proof.Machine

@[simp] theorem xorAll_nil : xorAll [] = 0 := rfl

@[simp] theorem xorAll_cons (b : Byte) (bs : List Byte) : xorAll (b :: bs) = b ^^^ xorAll bs := rfl

theorem xorAll_append (bs cs : List Byte) : xorAll (bs ++ cs) = xorAll bs ^^^ xorAll cs := by
  induction bs with
  | nil => simp
  | cons b bs ih => simp [ih, BitVec.xor_assoc]

theorem xorAll_singleton (b : Byte) : xorAll [b] = b := by simp

/-- A frame that ends in the XOR of its body has XOR 0 (R47). -/
theorem xorAll_checksum (bs : List Byte) : xorAll (bs ++ [xorAll bs]) = 0 := by
  simp [xorAll_append]

/-- Two bytes are equal exactly when their XOR is 0. -/
theorem xor_eq_zero_iff (a b : Byte) : a ^^^ b = 0 ↔ a = b := by
  constructor
  · intro h
    have : a ^^^ b ^^^ b = 0 ^^^ b := by rw [h]
    simpa [BitVec.xor_assoc] using this
  · rintro rfl; simp

theorem buildFrame_length (src dst : Byte) (data : List Byte) :
    (buildFrame src dst data).length = data.length + 4 := by
  simp [buildFrame, frameBody]

theorem declaredLength_toNat {p : Nat} (h : p + 2 ≤ 255) : (declaredLength p).toNat = p + 2 := by
  simp [declaredLength]; omega

/-- What STAGE builds declares its own length. -/
theorem buildFrame_lengthMatches (src dst : Byte) {data : List Byte} (h : data.length + 2 ≤ 255) :
    LengthMatches (buildFrame src dst data) := by
  simp only [LengthMatches, buildFrame_length]
  simp [buildFrame, frameBody, declaredLength_toNat h]

theorem buildFrame_xorAll (src dst : Byte) (data : List Byte) : xorAll (buildFrame src dst data) = 0 :=
  xorAll_checksum _

/-- `Complete` of a buffer that holds a run of bytes (R20). -/
theorem frameComplete_of_holds {s : State} {bs : List Byte} (hcfg : s.cfg.legal)
    (hl : bs.length = s.rxLen) (h : Holds .rxBuf bs s) :
    frameComplete s = .ok (decide (CompleteRun bs)) := by
  unfold frameComplete
  rw [hcfg.2.2.1]
  by_cases h4 : 4 < s.rxLen
  · have h1 : (1 : Nat) < bs.length := by rw [hl]; exact Nat.lt_trans (by decide) h4
    obtain ⟨v, hv⟩ : ∃ v, bs[1]? = some v := ⟨bs[1], by simp [h1]⟩
    have hr : readByte .rxBuf lenIdx s = .ok v :=
      readByte_of_byteAt (by show 1 < s.cfg.rxCap; rw [hcfg.1]; decide)
        (by show 1 < s.rxLen; omega) ((h 1 h1).trans hv)
    rw [if_pos h4, hr]
    refine congrArg Except.ok (decide_eq_decide.2 ⟨fun he => ⟨hl ▸ h4, ?_⟩, fun hc => ?_⟩)
    · simp only [LengthMatches, hv, Option.map_some, hl, he]
    · have := hc.2
      simp only [LengthMatches, hv, Option.map_some, Option.some.injEq] at this
      omega
  · rw [if_neg h4]
    exact congrArg Except.ok (decide_eq_false fun hc => h4 (hl ▸ hc.1)).symm

theorem CompleteRun.last {bs : List Byte} (h : CompleteRun bs) :
    ∃ v, bs[1]? = some v ∧ bs.length = v.toNat + 2 := by
  obtain ⟨v, hv, hl⟩ := Option.map_eq_some_iff.1 h.2
  exact ⟨v, hv, hl.symm⟩

/-- `XorOk` of a buffer that holds a complete frame: the XOR of all of it is 0 (R21). -/
theorem xorOk_of_holds {s : State} {bs : List Byte} (hl : bs.length = s.rxLen)
    (hcap : s.rxLen ≤ s.cfg.rxCap) (h : Holds .rxBuf bs s) (hc : CompleteRun bs) :
    xorOk s = .ok (decide (xorAll bs = 0)) := by
  obtain ⟨v, hv, hlen⟩ := hc.last
  have hcap' : s.capacity .rxBuf = s.cfg.rxCap := rfl
  have hext' : s.extent .rxBuf = s.rxLen := rfl
  have h4 : 4 < bs.length := hc.1
  have hr : readByte .rxBuf lenIdx s = .ok v :=
    readByte_of_byteAt (by show 1 < s.cfg.rxCap; omega) (by show 1 < s.rxLen; omega) ((h 1 (by omega)).trans hv)
  have hb : (bs.take (v.toNat + 1)).length = v.toNat + 1 := by simp; omega
  have hrb : readBytes .rxBuf s 0 (v.toNat + 1) = .ok (bs.take (v.toNat + 1)) := by
    have := readBytes_of_holds (s := s) (sp := .rxBuf) (bs := bs.take (v.toNat + 1))
      (by rw [hb, hcap']; omega) (by rw [hb, hext']; omega) (fun k hk => by
        rw [hb] at hk
        rw [h k (by omega), List.getElem?_take_of_lt hk])
    rwa [hb] at this
  have hlast : v.toNat + 1 < bs.length := by omega
  have hrc : readByte .rxBuf (cksIdx v.toNat) s = .ok bs[v.toNat + 1] :=
    readByte_of_byteAt (by show v.toNat + 1 < s.cfg.rxCap; omega)
      (by show v.toNat + 1 < s.rxLen; omega) (by
      rw [h _ hlast]; simp [hlast])
  have hsplit : bs = bs.take (v.toNat + 1) ++ [bs[v.toNat + 1]] := by
    conv_lhs => rw [← List.take_append_drop (v.toNat + 1) bs]
    congr 1
    rw [List.drop_eq_getElem_cons hlast, List.drop_of_length_le (by omega)]
  have hx : xorAll bs = xorAll (bs.take (v.toNat + 1)) ^^^ bs[v.toNat + 1] := by
    have := congrArg xorAll hsplit
    rwa [xorAll_append, xorAll_singleton] at this
  simp only [xorOk, hr, hrb, hrc]
  congr 1
  rw [hx]
  by_cases he : xorAll (bs.take (v.toNat + 1)) = bs[v.toNat + 1]
  · simp [he]
  · have : ¬ (xorAll (bs.take (v.toNat + 1)) ^^^ bs[v.toNat + 1] = 0) := fun h0 =>
      he ((xor_eq_zero_iff _ _).1 h0)
    rw [decide_eq_false this]
    simpa using he

/-- `Valid` of a buffer that holds a run of bytes (R21). -/
theorem frameValid_of_holds {s : State} {bs : List Byte} (hcfg : s.cfg.legal) (hl : bs.length = s.rxLen)
    (hcap : s.rxLen ≤ s.cfg.rxCap) (h : Holds .rxBuf bs s) :
    frameValid s = .ok (decide (ValidRun bs)) := by
  unfold frameValid
  rw [frameComplete_of_holds hcfg hl h]
  by_cases hc : CompleteRun bs
  · rw [decide_eq_true hc]
    exact (xorOk_of_holds hl hcap h hc).trans
      (congrArg Except.ok (decide_eq_decide.2 ⟨fun hx => ⟨hc, hx⟩, fun hv => hv.2⟩))
  · rw [decide_eq_false hc]
    exact congrArg Except.ok (decide_eq_false fun hv => hc hv.1).symm

/-- The predicates read only the receive buffer, its length and the parameters. -/
theorem frameValid_congr {s t : State} (hb : ∀ k, t.byteAt .rxBuf k = s.byteAt .rxBuf k)
    (hl : t.rxLen = s.rxLen) (hc : t.cfg = s.cfg) : frameValid t = frameValid s := by
  have hr : ∀ k, readByte .rxBuf k t = readByte .rxBuf k s := fun k => by
    simp only [readByte, hb k, State.capacity, State.extent, hl, hc]; rfl
  have hrs : ∀ n k, readBytes .rxBuf t k n = readBytes .rxBuf s k n := by
    intro n
    induction n with
    | zero => intro k; rfl
    | succ n ih => intro k; simp only [readBytes, hr, ih]
  simp only [frameValid, frameComplete, xorOk, hr, hrs, hl, hc]

end Sys2Proof.Machine
end

