-- ==== Sys2Proof/Laws/Receive.lean ====
section
/-! SUPPORT. What the shared operations of the receive side can do (R23, R60, R64), said once. -/

namespace Sys2Proof.Machine

/-- The bytes INGEST starts from: none after a clear, else those accumulated (R60). -/
def runBefore (s : State) (bs : List Byte) : List Byte := if s.rxFull || s.gapExpired then [] else bs

theorem runBefore_length_lt {s : State} {bs : List Byte} (hcfg : s.cfg.legal) (hl : bs.length = s.rxLen)
    (hcap : s.rxLen ≤ s.cfg.rxCap) : (runBefore s bs).length < s.cfg.rxCap := by
  unfold runBefore
  have h1 := hcfg.1
  have h2 := hcfg.2.1
  split
  · rw [h1]; decide
  · rename_i h
    simp only [State.rxFull, Bool.or_eq_true, decide_eq_true_eq, not_or] at h
    have := h.1
    omega

/-- The stale run is discarded, everything else stands (R104). -/
theorem clearIfStale_spec {s : State} {bs : List Byte} (hl : bs.length = s.rxLen)
    (h : Holds .rxBuf bs s) :
    ∃ ts pend, clearIfStale s =
        { s with rxLen := (runBefore s bs).length, rxTs := ts, rxPending := pend } ∧
      Holds .rxBuf (runBefore s bs) s := by
  unfold clearIfStale runBefore
  split
  · exact ⟨s.now, false, rfl, fun k hk => absurd hk (Nat.not_lt_zero k)⟩
  · exact ⟨s.rxTs, s.rxPending, by rw [hl], h⟩

/-- All INGEST's shared operation can do on a buffer that holds its run of bytes: the run after it is the
run it started from and the byte, `rx_pending` is the validity of that run, and no other byte changes. -/
theorem ingestByte_spec {s : State} {bs : List Byte} (b : Byte) (hcfg : s.cfg.legal) (hl : bs.length = s.rxLen)
    (hcap : s.rxLen ≤ s.cfg.rxCap) (h : Holds .rxBuf bs s) :
    ∃ m, ingestByte b s = .ok
        { s with rxBuf := m, rxLen := (runBefore s bs).length + 1, rxTs := s.now,
                 rxPending := decide (ValidRun (runBefore s bs ++ [b])) } ∧
      (∀ k, Memory.get m k = if k = (runBefore s bs).length then some b else s.byteAt .rxBuf k) ∧
      (∀ k, k < (runBefore s bs ++ [b]).length → Memory.get m k = (runBefore s bs ++ [b])[k]?) ∧
      (Memory.wf s.cfg.rxCap s.rxBuf → Memory.wf s.cfg.rxCap m) := by
  obtain ⟨ts, pend, hc, hold⟩ := clearIfStale_spec hl h
  have hlt := runBefore_length_lt hcfg hl hcap
  obtain ⟨run, hrun⟩ : ∃ run, run = runBefore s bs := ⟨_, rfl⟩
  rw [← hrun] at hc hold hlt ⊢
  have hget : ∀ k, Memory.get (Memory.set s.rxBuf run.length b) k =
      if k = run.length then some b else s.byteAt .rxBuf k := fun k => by
    by_cases hk : k = run.length
    · subst hk; simp
    · rw [if_neg hk, Memory.get_set_other _ _ hk]; rfl
  have hget' : ∀ k, k < (run ++ [b]).length →
      Memory.get (Memory.set s.rxBuf run.length b) k = (run ++ [b])[k]? := fun k hk => by
    rw [hget k]
    by_cases hk' : k = run.length
    · subst hk'; simp
    · have hk2 : k < run.length := by simp at hk; omega
      rw [if_neg hk', hold k hk2, List.getElem?_append_left hk2]
  refine ⟨Memory.set s.rxBuf run.length b, ?_, hget, hget', fun hw => Memory.wf_set b hw hlt⟩
  have hval : frameValid { s with rxBuf := Memory.set s.rxBuf run.length b, rxLen := run.length + 1,
                                  rxTs := s.now, rxPending := pend } =
      .ok (decide (ValidRun (run ++ [b]))) :=
    frameValid_of_holds hcfg (by simp) (by show run.length + 1 ≤ s.cfg.rxCap; exact hlt) hget'
  have hcap' : run.length < ({ s with rxLen := run.length, rxTs := ts, rxPending := pend } : State).capacity
      .rxBuf := hlt
  simp only [ingestByte, hc, appendRx, writeByte, if_pos hcap']
  show (match frameValid { s with rxBuf := Memory.set s.rxBuf run.length b, rxLen := run.length + 1,
                                  rxTs := s.now, rxPending := pend } with
        | .error f => Except.error f
        | .ok v => .ok { s with rxBuf := Memory.set s.rxBuf run.length b, rxLen := run.length + 1,
                                rxTs := s.now, rxPending := v }) = _
  rw [hval]

/-- All the copy into the snapshot can do (R22, R64). -/
theorem copyMessage_spec {s : State} {bs : List Byte} (hl : bs.length = s.rxLen)
    (hcap : s.rxLen ≤ s.cfg.rxCap) (h : Holds .rxBuf bs s) :
    ∃ m, copyMessage s = .ok { s with msgBuf := m, msgLen := s.rxLen, msgValid := true } ∧
      (∀ k, Memory.get m k = if k < bs.length then bs[k]? else s.byteAt .msgBuf k) ∧
      (Memory.wf s.cfg.rxCap s.msgBuf → Memory.wf s.cfg.rxCap m) := by
  have hr : readBytes .rxBuf s 0 s.rxLen = .ok bs := by
    rw [← hl]; exact readBytes_of_holds (by rw [hl]; exact hcap) (by rw [hl]; exact Nat.le_refl _) h
  obtain ⟨m, hw, hb, hwf⟩ := writeBytes_spec (sp := .msgBuf) bs 0 s (by
    rw [Nat.zero_add, hl]; exact hcap)
  refine ⟨m, ?_, fun k => ?_, hwf⟩
  · simp only [copyMessage, hr, hw]; rfl
  · have := hb .msgBuf k
    change Memory.get m k = _ at this
    simpa using this

end Sys2Proof.Machine
end

