-- ==== Sys2Proof/Laws/Transmit.lean ====
section
/-! SUPPORT. What the shared operations of the transmit side can do (R75, R76), said once. -/

namespace Sys2Proof.Machine

/-- All STAGE's shared operation can do for a frame that fits: the frame stands at index 0, the bytes
behind it are untouched (R75). -/
theorem stageFrame_spec {s : State} {src dst : Byte} {data : List Byte}
    (h : data.length + 4 ≤ s.cfg.txCap) :
    ∃ m, stageFrame src dst data s =
        .ok { s with txBuf := m, txLen := data.length + 4, txPending := true } ∧
      (∀ k, Memory.get m k =
        if k < data.length + 4 then (buildFrame src dst data)[k]? else s.byteAt .txBuf k) ∧
      (Memory.wf s.cfg.txCap s.txBuf → Memory.wf s.cfg.txCap m) := by
  obtain ⟨m, hw, hb, hwf⟩ := writeBytes_spec (sp := .txBuf) (buildFrame src dst data) 0 s (by
    rw [Nat.zero_add, buildFrame_length]; exact h)
  refine ⟨m, ?_, fun k => ?_, hwf⟩
  · simp only [stageFrame, hw]; rfl
  · have := hb .txBuf k
    change Memory.get m k = _ at this
    simpa [buildFrame_length] using this

/-- The flush step when it does not fire changes nothing (R76). -/
theorem flushStep_waits {s : State} {tLast : Nat} (h : (s.txPending && s.idleSince tLast) = false) :
    flushStep tLast s = .ok (s, false) := by
  simp [flushStep, h]

/-- The flush step when it fires: the whole staged frame is appended in one pass (R76). -/
theorem flushStep_fires {s : State} {tLast : Nat} {bs : List Byte}
    (h : (s.txPending && s.idleSince tLast) = true) (hl : bs.length = s.txLen)
    (hcap : s.txLen ≤ s.cfg.txCap) (hb : Holds .txBuf bs s) :
    flushStep tLast s =
      .ok ({ s with qTx := s.qTx ++ bs, txPending := false, echoRem := s.txLen }, true) := by
  have hr : readBytes .txBuf s 0 s.txLen = .ok bs := by
    rw [← hl]; exact readBytes_of_holds (by rw [hl]; exact hcap) (by rw [hl]; exact Nat.le_refl _) hb
  simp [flushStep, h, hr]

/-- All the flush step can do. -/
theorem flushStep_cases {s t : State} {tLast : Nat} {fired : Bool}
    (h : flushStep tLast s = .ok (t, fired)) :
    (fired = false ∧ t = s ∧ (s.txPending && s.idleSince tLast) = false) ∨
    (fired = true ∧ s.txPending = true ∧ s.cfg.tIdle ≤ elapsed s.cfg s.now tLast ∧
      ∃ bs, readBytes .txBuf s 0 s.txLen = .ok bs ∧
        t = { s with qTx := s.qTx ++ bs, txPending := false, echoRem := s.txLen }) := by
  unfold flushStep at h
  split at h
  · rename_i hc
    obtain ⟨hp, hi⟩ := Bool.and_eq_true_iff.1 hc
    split at h
    · cases h
    · rename_i bs hbs
      cases h
      exact .inr ⟨rfl, hp, of_decide_eq_true hi, bs, hbs, rfl⟩
  · rename_i hc
    cases h
    exact .inl ⟨rfl, rfl, by simpa using hc⟩

end Sys2Proof.Machine
end

