-- ==== Sys2Proof/Laws/Exec.lean ====
section
/-! SUPPORT. One inversion lemma for each operation: if it answers a next state, from whatever state, then
one of these cases holds. The whole-machine rules are case analyses over them. -/

namespace Sys2Proof.Machine

/-! ### The shared operations -/

theorem writeBytes_cases {sp : Space} (bs : List Byte) :
    ∀ {i : Nat} {s t : State}, writeBytes sp i bs s = .ok t → ∃ m, t = s.setMem m sp := by
  induction bs with
  | nil =>
    intro i s t h
    simp only [writeBytes] at h
    injection h with h
    exact ⟨s.mem sp, h ▸ (by cases sp <;> rfl)⟩
  | cons b bs ih =>
    intro i s t h
    simp only [writeBytes] at h
    split at h
    · cases h
    · rename_i s' hs'
      obtain ⟨m, rfl⟩ := ih h
      unfold writeByte at hs'
      split at hs'
      · injection hs' with hs'
        exact ⟨m, by rw [← hs']; cases sp <;> rfl⟩
      · cases hs'

theorem clearIfStale_cases (s : State) :
    (clearIfStale s = s ∧ ¬ (s.cfg.rxOvf < s.rxLen) ∧ ¬ s.gapExpired = true) ∨
      (clearIfStale s = clearRx s ∧ (s.cfg.rxOvf < s.rxLen ∨ s.gapExpired = true)) := by
  unfold clearIfStale
  by_cases h : (s.rxFull || s.gapExpired) = true
  · rw [if_pos h]
    refine .inr ⟨rfl, ?_⟩
    simpa [State.rxFull] using h
  · rw [if_neg h]
    refine .inl ⟨rfl, ?_⟩
    simpa [State.rxFull] using h

/-- INGEST's shared operation writes the four receive elements and nothing else, from any state (R60). -/
theorem ingestByte_cases {b : Byte} {s t : State} (h : ingestByte b s = .ok t) :
    ∃ m n pend, t = { s with rxBuf := m, rxLen := n + 1, rxTs := s.now, rxPending := pend } ∧
      n < s.cfg.rxCap ∧ Memory.get m n = some b ∧
      ∀ k, k ≠ n → Memory.get m k = s.byteAt .rxBuf k := by
  have key : ∀ s' : State, (∃ l p ts, s' = { s with rxLen := l, rxPending := p, rxTs := ts }) →
      (match appendRx b s' with
        | .error f => Except.error f
        | .ok s' => match frameValid s' with
          | .error f => .error f
          | .ok v => .ok { s' with rxPending := v }) = .ok t →
      ∃ m n pend, t = { s with rxBuf := m, rxLen := n + 1, rxTs := s.now, rxPending := pend } ∧
        n < s.cfg.rxCap ∧ Memory.get m n = some b ∧
        ∀ k, k ≠ n → Memory.get m k = s.byteAt .rxBuf k := by
    rintro s' ⟨l, p, ts, rfl⟩ h
    by_cases hl : l < s.cfg.rxCap
    · have hl' : l < ({ s with rxLen := l, rxPending := p, rxTs := ts } : State).capacity .rxBuf := hl
      simp only [appendRx, writeByte, if_pos hl'] at h
      split at h
      · cases h
      · rename_i v hv
        injection h with h
        exact ⟨Memory.set s.rxBuf l b, l, v, h.symm, hl, Memory.get_set_same _ _ _,
          fun k hk => Memory.get_set_other _ _ hk⟩
    · have hl' : ¬ l < ({ s with rxLen := l, rxPending := p, rxTs := ts } : State).capacity .rxBuf := hl
      simp only [appendRx, writeByte, if_neg hl'] at h
      cases h
  unfold ingestByte at h
  rcases clearIfStale_cases s with ⟨hc, -⟩ | ⟨hc, -⟩ <;> rw [hc] at h
  · exact key s ⟨s.rxLen, s.rxPending, s.rxTs, rfl⟩ h
  · exact key (clearRx s) ⟨0, false, s.now, rfl⟩ h

/-- POLL's byte step, from any state (R61). -/
theorem pollByte_cases {s t : State} {ev : BitVec 8} (h : pollByte s = .ok (t, ev)) :
    (s.qRx = [] ∧ t = s ∧ ev = 0) ∨
    (∃ b rest, s.qRx = b :: rest ∧ 0 < s.echoRem ∧ s.txPending = false ∧ ev = evEchoDrop ∧
      t = { s with qRx := rest, echoRem := s.echoRem - 1 }) ∨
    (∃ b rest, s.qRx = b :: rest ∧ (s.echoRem = 0 ∨ s.txPending = true) ∧ ev = ingestEvents s ∧
      ingestByte b { s with qRx := rest } = .ok t) := by
  unfold pollByte at h
  split at h
  · rename_i hq
    cases h
    exact .inl ⟨hq, rfl, rfl⟩
  · rename_i b rest hq
    split at h
    · rename_i he
      obtain ⟨h1, h2⟩ := Bool.and_eq_true_iff.1 he
      cases h
      exact .inr (.inl ⟨b, rest, hq, of_decide_eq_true h1, by simpa using h2, rfl, rfl⟩)
    · rename_i he
      split at h
      · cases h
      · rename_i s' hs'
        cases h
        refine .inr (.inr ⟨b, rest, hq, ?_, rfl, hs'⟩)
        by_cases h0 : s.echoRem = 0
        · exact .inl h0
        · refine .inr ?_
          simp only [State.echoActive, Bool.and_eq_true, decide_eq_true_eq, not_and] at he
          simpa using he (Nat.pos_of_ne_zero h0)

/-! ### The operations -/

theorem execIngest_cases {b : Byte} {s t : State} (h : execIngest b s = .next t) :
    ∃ s', ingestByte b s = .ok s' ∧ t = respond (bitByte s'.rxPending) (ingestEvents s) s' := by
  unfold execIngest at h
  split at h
  · cases h
  · rename_i s' hs'
    injection h with h
    exact ⟨s', hs', h.symm⟩

theorem execPoll_cases {s t : State} (h : execPoll s = .next t) :
    ∃ s1 ev s2 fired, pollByte s = .ok (s1, ev) ∧ flushStep s1.rxTs s1 = .ok (s2, fired) ∧
      t = respond (bitByte s2.rxPending) (ev ||| evIf fired evTxFlush) s2 := by
  unfold execPoll at h
  split at h
  · cases h
  · rename_i s1 ev h1
    split at h
    · cases h
    · rename_i s2 fired h2
      injection h with h
      exact ⟨s1, ev, s2, fired, h1, h2, h.symm⟩

theorem execTake_cases {s t : State} (h : execTake s = .next t) :
    (frameComplete s = .ok false ∧ t = respond 0 0 s) ∨
    (frameComplete s = .ok true ∧ xorOk s = .ok false ∧ t = respond 0 evRxCkFail (clearRx s)) ∨
    (frameComplete s = .ok true ∧ xorOk s = .ok true ∧
      ∃ m, t = respond 1 evMsg (clearRx { s with msgBuf := m, msgLen := s.rxLen, msgValid := true })) := by
  unfold execTake at h
  split at h
  · cases h
  · rename_i hc
    injection h with h
    exact .inl ⟨hc, h.symm⟩
  · rename_i hc
    split at h
    · cases h
    · rename_i hx
      injection h with h
      exact .inr (.inl ⟨hc, hx, h.symm⟩)
    · rename_i hx
      split at h
      · cases h
      · rename_i s' hs'
        injection h with h
        refine .inr (.inr ⟨hc, hx, ?_⟩)
        unfold copyMessage at hs'
        split at hs'
        · cases hs'
        · rename_i bs hbs
          split at hs'
          · cases hs'
          · rename_i s'' hw
            obtain ⟨m, rfl⟩ := writeBytes_cases bs hw
            injection hs' with hs'
            exact ⟨m, by rw [← h, ← hs']; rfl⟩

theorem execHasframe_cases {s t : State} (h : execHasframe s = .next t) :
    ∃ c, frameComplete s = .ok c ∧ t = respond (bitByte c) 0 s := by
  unfold execHasframe at h
  split at h
  · cases h
  · rename_i c hc
    injection h with h
    exact ⟨c, hc, h.symm⟩

theorem execCkvalid_cases {s t : State} (h : execCkvalid s = .next t) :
    ∃ v, frameValid s = .ok v ∧ t = respond (bitByte v) 0 s := by
  unfold execCkvalid at h
  split at h
  · cases h
  · rename_i v hv
    injection h with h
    exact ⟨v, hv, h.symm⟩

theorem execStage_cases {src dst : Byte} {data : List Byte} {s t : State}
    (h : execStage src dst data s = .next t) :
    (s.cfg.txCap < data.length + 4 ∧ t = refuse refStageLen s) ∨
    (data.length + 4 ≤ s.cfg.txCap ∧
      ∃ m, t = respond 0 0 { s with txBuf := m, txLen := data.length + 4, txPending := true }) := by
  unfold execStage at h
  split at h
  · rename_i hc
    injection h with h
    exact .inl ⟨hc, h.symm⟩
  · rename_i hc
    split at h
    · cases h
    · rename_i s' hs'
      injection h with h
      unfold stageFrame at hs'
      split at hs'
      · cases hs'
      · rename_i s'' hw
        obtain ⟨m, rfl⟩ := writeBytes_cases _ hw
        injection hs' with hs'
        exact .inr ⟨Nat.le_of_not_lt hc, m, by rw [← h, ← hs']; rfl⟩

theorem execTryflush_cases {s t : State} (h : execTryflush s = .next t) :
    ∃ s' fired, flushStep s.rxTs s = .ok (s', fired) ∧
      t = respond (bitByte fired) (evIf fired evTxFlush) s' := by
  unfold execTryflush at h
  split at h
  · cases h
  · rename_i s' fired hf
    injection h with h
    exact ⟨s', fired, hf, h.symm⟩

theorem viewMessage_cases {view : Except Fault Byte} {s t : State} (h : viewMessage view s = .next t) :
    (s.msgValid = false ∧ t = refuse refNoMsg s) ∨
    (s.msgValid = true ∧ ∃ v, view = .ok v ∧ t = respond v 0 s) := by
  unfold viewMessage at h
  split at h
  · rename_i hm
    split at h
    · cases h
    · rename_i _ v
      injection h with h
      exact .inr ⟨hm, v, rfl, h.symm⟩
  · rename_i hm
    injection h with h
    exact .inl ⟨by simpa using hm, h.symm⟩

end Sys2Proof.Machine
end

