-- ==== Sys2Proof/Laws/Results.lean ====
section
/-! SUPPORT. The next state of each operation that writes the core's state, written out, for a state whose
buffers hold what the operation reads. The statements' result clauses are read off these. -/

namespace Sys2Proof.Machine

/-- What the message view and the predicates read when nothing else changes. -/
theorem Holds.of_mem_eq {s t : State} {sp : Space} {bs : List Byte} (h : Holds sp bs s)
    (ht : t.mem sp = s.mem sp) : Holds sp bs t :=
  h.congr (State.byteAt_congr ht)

/-- INGEST, written out (R60). -/
theorem exec_ingest_of_holds {s : State} {bs : List Byte} (b : Byte) (hcfg : s.cfg.legal) (hl : bs.length = s.rxLen)
    (hcap : s.rxLen ≤ s.cfg.rxCap) (h : Holds .rxBuf bs s) :
    ∃ m, exec (.ingest b) s = .next (respond (bitByte (decide (ValidRun (runBefore s bs ++ [b]))))
        (ingestEvents s)
        { s with rxBuf := m, rxLen := (runBefore s bs).length + 1, rxTs := s.now,
                 rxPending := decide (ValidRun (runBefore s bs ++ [b])) }) ∧
      (∀ k, Memory.get m k = if k = (runBefore s bs).length then some b else s.byteAt .rxBuf k) ∧
      (∀ k, k < (runBefore s bs ++ [b]).length → Memory.get m k = (runBefore s bs ++ [b])[k]?) ∧
      (Memory.wf s.cfg.rxCap s.rxBuf → Memory.wf s.cfg.rxCap m) := by
  obtain ⟨m, he, hget, hrun, hwf⟩ := ingestByte_spec b hcfg hl hcap h
  exact ⟨m, by simp only [exec, execIngest, he], hget, hrun, hwf⟩

/-- A stale run starts again from nothing (R60, R98, R99). -/
theorem runBefore_of_stale {s : State} {bs : List Byte} (hcfg : s.cfg.legal)
    (h : 254 < s.rxLen ∨ s.cfg.tGap ≤ elapsed s.cfg s.now s.rxTs) : runBefore s bs = [] := by
  unfold runBefore
  rw [if_pos]
  simpa [State.rxFull, State.gapExpired, rxOvf_of_legal hcfg] using h

/-- A run that is not stale goes on (R60). -/
theorem runBefore_of_fresh {s : State} {bs : List Byte} (hcfg : s.cfg.legal)
    (h : ¬ (254 < s.rxLen ∨ s.cfg.tGap ≤ elapsed s.cfg s.now s.rxTs)) : runBefore s bs = bs := by
  unfold runBefore
  rw [if_neg]
  simpa [State.rxFull, State.gapExpired, rxOvf_of_legal hcfg] using h

/-- POLL of a byte that is not discarded is the INGEST of it on the state without it (R61). -/
theorem pollByte_of_ingest {s t : State} {b : Byte} {rest : List Byte} (hq : s.qRx = b :: rest)
    (he : s.echoRem = 0 ∨ s.txPending = true) (h : ingestByte b { s with qRx := rest } = .ok t) :
    pollByte s = .ok (t, ingestEvents s) := by
  have hc : (s.echoActive && !s.txPending) = false := by
    rcases he with h | h <;> simp [State.echoActive, h]
  simp only [pollByte, hq, hc, Bool.false_eq_true, if_false, h]

/-- TAKE of a valid frame, written out (R64). -/
theorem exec_take_of_valid {s : State} {bs : List Byte} (hcfg : s.cfg.legal) (hl : bs.length = s.rxLen)
    (hcap : s.rxLen ≤ s.cfg.rxCap) (h : Holds .rxBuf bs s) (hv : ValidRun bs) :
    ∃ m, exec .take s = .next (respond 1 evMsg
        (clearRx { s with msgBuf := m, msgLen := s.rxLen, msgValid := true })) ∧
      (∀ k, Memory.get m k = if k < bs.length then bs[k]? else s.byteAt .msgBuf k) ∧
      (Memory.wf s.cfg.rxCap s.msgBuf → Memory.wf s.cfg.rxCap m) := by
  have hc := frameComplete_of_holds hcfg hl h
  have hx := xorOk_of_holds hl hcap h hv.1
  rw [decide_eq_true hv.1] at hc
  rw [decide_eq_true hv.2] at hx
  obtain ⟨m, hm, hget, hwf⟩ := copyMessage_spec hl hcap h
  exact ⟨m, by simp only [exec, execTake, hc, hx, hm], hget, hwf⟩

/-- STAGE of a frame that fits, written out (R75). -/
theorem exec_stage_of_fits {s : State} (src dst : Byte) {data : List Byte}
    (h : data.length + 4 ≤ s.cfg.txCap) :
    ∃ m, exec (.stage src dst data) s = .next (respond 0 0
        { s with txBuf := m, txLen := data.length + 4, txPending := true }) ∧
      (∀ k, Memory.get m k =
        if k < data.length + 4 then (buildFrame src dst data)[k]? else s.byteAt .txBuf k) ∧
      (Memory.wf s.cfg.txCap s.txBuf → Memory.wf s.cfg.txCap m) := by
  obtain ⟨m, hm, hget, hwf⟩ := stageFrame_spec (src := src) (dst := dst) h
  refine ⟨m, ?_, hget, hwf⟩
  simp only [exec, execStage, hm]
  rw [if_neg (by simp [frameSize]; omega)]

/-- The bytes of the frame STAGE builds, by their index (R33, R45). -/
theorem buildFrame_getElem (src dst : Byte) (data : List Byte) :
    (buildFrame src dst data)[0]? = some src ∧
    (buildFrame src dst data)[1]? = some (declaredLength data.length) ∧
    (buildFrame src dst data)[2]? = some dst ∧
    (∀ k, k < data.length → (buildFrame src dst data)[3 + k]? = data[k]?) ∧
    (buildFrame src dst data)[data.length + 3]? = some (xorAll (frameBody src dst data)) := by
  refine ⟨rfl, rfl, rfl, fun k hk => ?_, ?_⟩
  · simp only [buildFrame]
    rw [List.getElem?_append_left (by simp [frameBody]; omega)]
    simp [frameBody, Nat.add_comm 3 k]
  · simp only [buildFrame]
    rw [List.getElem?_append_right (by simp [frameBody])]
    simp [frameBody]

/-! ### What the invariant gives -/

theorem Consistent.txLenLe {s : State} (h : Consistent s) : s.txLen ≤ s.cfg.txCap := by
  rcases h.txLenRange with h | h <;> omega

/-- The accumulated bytes, as a list. -/
theorem Consistent.rxBytes {s : State} (h : Consistent s) : ∃ bs : List Byte, bs.length = s.rxLen ∧ Holds .rxBuf bs s :=
  exists_holds_of_written h.rxWritten

/-- The staged frame, as a list. -/
theorem Consistent.stagedFrame {s : State} (h : Consistent s) (hp : s.txPending = true) :
    ∃ bs : List Byte, bs.length = s.txLen ∧ Holds .txBuf bs s := by
  have h4 := h.txPendingStaged hp
  obtain ⟨bs, hl, hb, -⟩ := h.txFrame (by omega)
  exact ⟨bs, hl, hb⟩

/-- Any list the snapshot holds whole is the validated frame of I6. -/
theorem Consistent.message {s : State} (h : Consistent s) (hm : s.msgValid = true) {bs : List Byte}
    (hl : bs.length = s.msgLen) (hb : Holds .msgBuf bs s) : ValidRun bs ∧ bs.length ≤ 255 := by
  obtain ⟨cs, hcl, hcs, hv⟩ := h.msgFrame hm
  obtain rfl := hb.unique hcs (hl.trans hcl.symm)
  have := h.msgLenRange
  rw [if_pos hm] at this
  exact ⟨hv, hl ▸ h.cfgLegal.1 ▸ this.2⟩

/-- A byte of the snapshot, read (R85 to R88). -/
theorem Consistent.readMessage {s : State} (h : Consistent s) (hm : s.msgValid = true) {bs : List Byte}
    (hl : bs.length = s.msgLen) (hb : Holds .msgBuf bs s) {k : Nat} {v : Byte} (hk : bs[k]? = some v) :
    readByte .msgBuf k s = .ok v :=
  readByte_of_holds (by show bs.length ≤ s.cfg.rxCap; rw [h.cfgLegal.1]; exact (h.message hm hl hb).2)
    (Nat.le_of_eq hl) hb hk

/-- A complete run of at most 255 bytes declares 3 to 253 (R20). -/
theorem CompleteRun.declared {bs : List Byte} (h : CompleteRun bs) (h255 : bs.length ≤ 255) {len : Byte}
    (h1 : bs[1]? = some len) : bs.length = len.toNat + 2 ∧ 3 ≤ len.toNat ∧ len.toNat ≤ 253 := by
  obtain ⟨v, hv, hl⟩ := h.last
  obtain rfl : v = len := by rw [hv] at h1; exact Option.some.inj h1
  have h4 : 4 < bs.length := h.1
  omega

end Sys2Proof.Machine
end

