-- ==== Sys2Proof/Laws/Consistent.lean ====
section
/-! SUPPORT. Small lemmas about the invariant: what it depends on, how each of its three parts is put
together again, and a check that `decide` can run on a concrete state. -/

namespace Sys2Proof.Machine

/-- The predicates and the buffers depend on the receive registers only through these two elements. -/
theorem frameValid_of_eq {s t : State} (hb : t.rxBuf = s.rxBuf) (hl : t.rxLen = s.rxLen)
    (hc : t.cfg = s.cfg) : frameValid t = frameValid s :=
  frameValid_congr (fun k => State.byteAt_congr (sp := .rxBuf) hb k) hl hc

theorem Consistent.rxPendingOfEq {s t : State} (h : Consistent s) (hb : t.rxBuf = s.rxBuf) (hl : t.rxLen = s.rxLen)
    (hp : t.rxPending = s.rxPending) (hc : t.cfg = s.cfg) : frameValid t = .ok t.rxPending := by
  rw [frameValid_of_eq hb hl hc, hp]; exact h.rxPendingValid

/-- The invariant speaks of neither queue, nor of the response, nor of the inputs. -/
theorem Consistent.withPorts {s : State} (h : Consistent s) (qr qt : List Byte) (r : Option Response) (is : List Input) :
    Consistent { s with qRx := qr, qTx := qt, response := r, inputs := is } where
  cfgLegal := h.cfgLegal
  nowRange := h.nowRange
  tsRange := h.tsRange
  rxWf := h.rxWf
  txWf := h.txWf
  msgWf := h.msgWf
  rxLenLe := h.rxLenLe
  rxWritten := h.rxWritten
  rxPendingValid := h.rxPendingOfEq rfl rfl rfl rfl
  txLenRange := h.txLenRange
  txPendingStaged := h.txPendingStaged
  echoLe := h.echoLe
  txFrame := h.txFrame
  msgLenRange := h.msgLenRange
  msgFrame := h.msgFrame

/-- The receive side, put together again from the run of bytes the buffer holds. -/
theorem Consistent.withRx {s : State} (h : Consistent s) {m : Memory} {run : List Byte} {ts : Nat}
    (hts : ts < s.cfg.timeRange) (hcap : run.length ≤ s.cfg.rxCap) (hwf : Memory.wf s.cfg.rxCap m)
    (hm : ∀ k, k < run.length → Memory.get m k = run[k]?) :
    Consistent { s with rxBuf := m, rxLen := run.length, rxTs := ts, rxPending := decide (ValidRun run) } where
  cfgLegal := h.cfgLegal
  nowRange := h.nowRange
  tsRange := hts
  rxWf := hwf
  txWf := h.txWf
  msgWf := h.msgWf
  rxLenLe := hcap
  rxWritten := fun k hk => by
    show (Memory.get m k).isSome = true
    rw [hm k hk, List.getElem?_eq_getElem hk]; rfl
  rxPendingValid := frameValid_of_holds h.cfgLegal rfl hcap hm
  txLenRange := h.txLenRange
  txPendingStaged := h.txPendingStaged
  echoLe := h.echoLe
  txFrame := h.txFrame
  msgLenRange := h.msgLenRange
  msgFrame := h.msgFrame

/-- The transmit side, put together again. -/
theorem Consistent.withTx {s : State} (h : Consistent s) {m : Memory} {len echo : Nat} {pend : Bool}
    (hwf : Memory.wf s.cfg.txCap m) (hlen : len = 0 ∨ 4 ≤ len ∧ len ≤ s.cfg.txCap)
    (hpend : pend = true → 4 ≤ len) (hecho : echo ≤ s.cfg.txCap)
    (hm : 0 < len → ∃ bs : List Byte, bs.length = len ∧
      (∀ k, k < bs.length → Memory.get m k = bs[k]?) ∧ LengthMatches bs ∧ xorAll bs = 0) :
    Consistent { s with txBuf := m, txLen := len, txPending := pend, echoRem := echo } where
  cfgLegal := h.cfgLegal
  nowRange := h.nowRange
  tsRange := h.tsRange
  rxWf := h.rxWf
  txWf := hwf
  msgWf := h.msgWf
  rxLenLe := h.rxLenLe
  rxWritten := h.rxWritten
  rxPendingValid := h.rxPendingOfEq rfl rfl rfl rfl
  txLenRange := hlen
  txPendingStaged := hpend
  echoLe := hecho
  txFrame := hm
  msgLenRange := h.msgLenRange
  msgFrame := h.msgFrame

/-- The snapshot, put together again from a validated frame. -/
theorem Consistent.withMsg {s : State} (h : Consistent s) {m : Memory} {bs : List Byte}
    (hwf : Memory.wf s.cfg.rxCap m) (hcap : bs.length ≤ s.cfg.rxCap) (hv : ValidRun bs)
    (hm : ∀ k, k < bs.length → Memory.get m k = bs[k]?) :
    Consistent { s with msgBuf := m, msgLen := bs.length, msgValid := true } where
  cfgLegal := h.cfgLegal
  nowRange := h.nowRange
  tsRange := h.tsRange
  rxWf := h.rxWf
  txWf := h.txWf
  msgWf := hwf
  rxLenLe := h.rxLenLe
  rxWritten := h.rxWritten
  rxPendingValid := h.rxPendingOfEq rfl rfl rfl rfl
  txLenRange := h.txLenRange
  txPendingStaged := h.txPendingStaged
  echoLe := h.echoLe
  txFrame := h.txFrame
  msgLenRange := by
    have : 4 < bs.length := hv.1.1
    exact ⟨this, hcap⟩
  msgFrame := fun _ => ⟨bs, rfl, hm, hv⟩

/-! ### The shared operations keep the invariant -/

theorem Consistent.respond {s : State} (h : Consistent s) (val : Byte) (ev : BitVec 8) :
    Consistent (Machine.respond val ev s) :=
  h.withPorts s.qRx s.qTx _ s.inputs

theorem Consistent.refuse {s : State} (h : Consistent s) (reason : BitVec 2) :
    Consistent (Machine.refuse reason s) :=
  h.withPorts s.qRx s.qTx _ s.inputs

theorem Consistent.withInputs {s : State} (h : Consistent s) (is : List Input) :
    Consistent { s with inputs := is } :=
  h.withPorts s.qRx s.qTx s.response is

/-- The clock may read anything (R110; log 11). -/
theorem Consistent.clockTo {s : State} (h : Consistent s) (t : Nat) : Consistent (Machine.clockTo t s) :=
  { h with nowRange := Nat.mod_lt _ (timeRange_pos _), rxPendingValid := h.rxPendingOfEq rfl rfl rfl rfl }

/-- `ClearRx` (R23). -/
theorem Consistent.clear {s : State} (h : Consistent s) : Consistent (clearRx s) :=
  h.withRx (run := []) (m := s.rxBuf) h.nowRange (Nat.zero_le _) h.rxWf (fun k hk => absurd hk (Nat.not_lt_zero k))

/-- INGEST's effect never faults (R60). -/
theorem Consistent.ingest_ok {s : State} (b : Byte) (h : Consistent s) : ∃ t, ingestByte b s = .ok t := by
  obtain ⟨bs, hl, hb⟩ := h.rxBytes
  obtain ⟨m, he, -⟩ := ingestByte_spec b h.cfgLegal hl h.rxLenLe hb
  exact ⟨_, he⟩

theorem Consistent.ingest {s t : State} {b : Byte} (h : Consistent s) (ht : ingestByte b s = .ok t) :
    Consistent t := by
  obtain ⟨bs, hl, hb⟩ := h.rxBytes
  obtain ⟨m, he, -, hrun, hwf⟩ := ingestByte_spec b h.cfgLegal hl h.rxLenLe hb
  rw [he] at ht
  obtain rfl := Except.ok.inj ht
  have hlt := runBefore_length_lt h.cfgLegal hl h.rxLenLe
  have := h.withRx (run := runBefore s bs ++ [b]) h.nowRange (by simp; omega) (hwf h.rxWf) hrun
  simpa using this

/-- The flush step never faults (R76). -/
theorem Consistent.flush_ok {s : State} (tLast : Nat) (h : Consistent s) :
    ∃ t fired, flushStep tLast s = .ok (t, fired) := by
  by_cases hf : (s.txPending && s.idleSince tLast) = true
  · obtain ⟨bs, hl, hb⟩ := h.stagedFrame (Bool.and_eq_true_iff.1 hf).1
    exact ⟨_, _, flushStep_fires hf hl h.txLenLe hb⟩
  · exact ⟨_, _, flushStep_waits (by simpa using hf)⟩

theorem Consistent.flush {s t : State} {fired : Bool} {tLast : Nat} (h : Consistent s)
    (ht : flushStep tLast s = .ok (t, fired)) : Consistent t := by
  rcases flushStep_cases ht with ⟨-, rfl, -⟩ | ⟨-, -, -, bs, -, rfl⟩
  · exact h
  · have := h.withTx (m := s.txBuf) (len := s.txLen) (echo := s.txLen) (pend := false) h.txWf
      h.txLenRange (by simp) h.txLenLe h.txFrame
    exact this.withPorts s.qRx (s.qTx ++ bs) s.response s.inputs

/-- The flush step writes `Q_tx`, `tx_pending` and `echo_rem` and nothing else, from any state. -/
theorem flushStep_frame {s t : State} {tLast : Nat} {fired : Bool} (h : flushStep tLast s = .ok (t, fired)) :
    ∃ q p e, t = { s with qTx := q, txPending := p, echoRem := e } := by
  rcases flushStep_cases h with ⟨-, rfl, -⟩ | ⟨-, -, -, bs, -, rfl⟩
  · exact ⟨_, _, _, rfl⟩
  · exact ⟨_, _, _, rfl⟩

/-- The invariant as a check on a concrete state: `tx` and `msg` are the staged frame and the snapshot. -/
abbrev Consistent.checks (s : State) (tx msg : List Byte) : Prop :=
  s.cfg.legal ∧ s.now < s.cfg.timeRange ∧ s.rxTs < s.cfg.timeRange ∧ Memory.wf s.cfg.rxCap s.rxBuf ∧
  Memory.wf s.cfg.txCap s.txBuf ∧ Memory.wf s.cfg.rxCap s.msgBuf ∧ s.rxLen ≤ s.cfg.rxCap ∧
  Written .rxBuf s.rxLen s ∧ (frameValid s).toOption = some s.rxPending ∧
  (s.txLen = 0 ∨ 4 ≤ s.txLen ∧ s.txLen ≤ s.cfg.txCap) ∧ (s.txPending = true → 4 ≤ s.txLen) ∧
  s.echoRem ≤ s.cfg.txCap ∧
  (0 < s.txLen → tx.length = s.txLen ∧ Holds .txBuf tx s ∧ LengthMatches tx ∧ xorAll tx = 0) ∧
  (if s.msgValid then 5 ≤ s.msgLen ∧ s.msgLen ≤ s.cfg.rxCap else s.msgLen = 0) ∧
  (s.msgValid = true → msg.length = s.msgLen ∧ Holds .msgBuf msg s ∧ ValidRun msg)

theorem Consistent.of_checks {s : State} (tx msg : List Byte) (h : Consistent.checks s tx msg) : Consistent s := by
  obtain ⟨h1, h2, h3, h4, h5, h6, h7, h8, h9, h10, h11, h12, h13, h14, h15⟩ := h
  refine ⟨h1, h2, h3, h4, h5, h6, h7, h8, ?_, h10, h11, h12, fun h => ⟨tx, h13 h⟩, h14,
    fun h => ⟨msg, h15 h⟩⟩
  cases hv : frameValid s with
  | error f => rw [hv] at h9; cases h9
  | ok v => rw [hv] at h9; exact congrArg Except.ok (Option.some.inj h9)

end Sys2Proof.Machine
end

