-- ==== Sys2Proof/Laws/Decode.lean ====
section
/-! SUPPORT. The fields of a command word, and what decoding reads of the port (R49, R53). -/

namespace Sys2Proof

/-- The layout of R49, bit by bit. -/
theorem packWord_getLsbD (op : BitVec 4) (a b n : Byte) (i : Nat) :
    (packWord op a b n).getLsbD i =
      if i < 8 then n.getLsbD i else if i < 16 then b.getLsbD (i - 8)
      else if i < 24 then a.getLsbD (i - 16) else if i < 28 then false else op.getLsbD (i - 28) := by
  have h1 := BitVec.getLsbD_append (x := op ++ 0#4 ++ a ++ b) (y := n) (i := i)
  have h2 := BitVec.getLsbD_append (x := op ++ 0#4 ++ a) (y := b) (i := i - 8)
  have h3 := BitVec.getLsbD_append (x := op ++ 0#4) (y := a) (i := i - 8 - 8)
  have h4 := BitVec.getLsbD_append (x := op) (y := 0#4) (i := i - 8 - 8 - 8)
  rw [h4] at h3; rw [h3] at h2; rw [h2] at h1
  refine h1.trans ?_
  have e1 : i - 8 - 8 = i - 16 := by omega
  have e2 : i - 16 - 8 = i - 24 := by omega
  have e3 : i - 24 - 4 = i - 28 := by omega
  rw [e1, e2, e3]
  simp only [BitVec.getLsbD_zero]
  by_cases c1 : i < 8
  · simp [c1]
  by_cases c2 : i < 16
  · simp [c1, c2, show i - 8 < 8 by omega]
  by_cases c3 : i < 24
  · simp [c1, c2, c3, show ¬ i - 8 < 8 by omega, show i - 16 < 8 by omega]
  by_cases c4 : i < 28
  · simp [c1, c2, c3, c4, show ¬ i - 8 < 8 by omega, show ¬ i - 16 < 8 by omega, show i - 24 < 4 by omega]
  · simp [c1, c2, c3, c4, show ¬ i - 8 < 8 by omega, show ¬ i - 16 < 8 by omega, show ¬ i - 24 < 4 by omega]

@[simp] theorem opField_packWord (op : BitVec 4) (a b n : Byte) : opField (packWord op a b n) = op := by
  apply BitVec.eq_of_getLsbD_eq
  intro i hi
  simp only [opField, BitVec.getLsbD_extractLsb', packWord_getLsbD]
  simp [hi, show ¬ 28 + i < 8 by omega, show ¬ 28 + i < 16 by omega, show ¬ 28 + i < 24 by omega]

@[simp] theorem aField_packWord (op : BitVec 4) (a b n : Byte) : aField (packWord op a b n) = a := by
  apply BitVec.eq_of_getLsbD_eq
  intro i hi
  simp only [aField, BitVec.getLsbD_extractLsb', packWord_getLsbD]
  simp [hi, show ¬ 16 + i < 8 by omega, show 16 + i < 24 by omega]

@[simp] theorem bField_packWord (op : BitVec 4) (a b n : Byte) : bField (packWord op a b n) = b := by
  apply BitVec.eq_of_getLsbD_eq
  intro i hi
  simp only [bField, BitVec.getLsbD_extractLsb', packWord_getLsbD]
  simp [hi, show 8 + i < 16 by omega]

@[simp] theorem nField_packWord (op : BitVec 4) (a b n : Byte) : nField (packWord op a b n) = n := by
  apply BitVec.eq_of_getLsbD_eq
  intro i hi
  simp only [nField, BitVec.getLsbD_extractLsb', packWord_getLsbD]
  simp [hi]

/-- The mask of R50 keeps exactly the field `op`. -/
theorem and_mask_eq (w : CmdWord) : w &&& 0xF0000000#32 = (opField w).zeroExtend 32 <<< 28 := by
  apply BitVec.eq_of_getLsbD_eq
  intro i hi
  simp only [opField, BitVec.getLsbD_and, BitVec.getLsbD_shiftLeft, BitVec.truncate_eq_setWidth,
    BitVec.getLsbD_setWidth, BitVec.getLsbD_extractLsb']
  have hm : (0xF0000000#32).getLsbD i = decide (28 ≤ i) := by
    revert i; decide
  rw [hm]
  by_cases hc : 28 ≤ i
  · simp [hc, hi, show ¬ i < 28 by omega, show i - 28 < 4 by omega, show 28 + (i - 28) = i by omega,
      show i - 28 < 32 by omega]
  · simp [hc, show i < 28 by omega]

/-- Data bytes behind those a decoding used stay on the port (R53). -/
theorem decode_append {w : CmdWord} {ds : List Byte} {i : Instr} {left : List Byte} (more : List Byte)
    (h : decode w ds = .ok (i, left)) : decode w (ds ++ more) = .ok (i, left ++ more) := by
  unfold decode at h ⊢
  split at h <;> first
    | (cases h; done)
    | (obtain ⟨rfl, rfl⟩ := Prod.mk.inj (Except.ok.inj h); simp_all)
    | skip
  unfold decodeStage at h ⊢
  split at h
  · rename_i hle
    obtain ⟨rfl, rfl⟩ := Prod.mk.inj (Except.ok.inj h)
    rw [if_pos (by simp; omega), List.take_append_of_le_length hle, List.drop_append_of_le_length hle]
  · cases h

namespace Machine

@[simp] theorem dataRun_append (ds : List Byte) (rest : List Input) :
    dataRun (ds.map .data ++ rest) = ds ++ dataRun rest := by
  induction ds with
  | nil => rfl
  | cons b ds ih => simp [dataRun, ih]

@[simp] theorem afterData_append (ds : List Byte) (rest : List Input) :
    afterData (ds.map .data ++ rest) = afterData rest := by
  induction ds with
  | nil => rfl
  | cons b ds ih => simp [afterData, ih]

/-- The data bytes at the head and what follows them are the whole port. -/
theorem dataRun_afterData (l : List Input) : (dataRun l).map .data ++ afterData l = l := by
  induction l with
  | nil => rfl
  | cons x l ih => cases x <;> simp [dataRun, afterData, ih]

end Machine

end Sys2Proof
end

