-- ==== Sys2Proof/Laws/PerInstr.lean ====
section
/-! SUPPORT. Statements made of each operation as syntax, one lemma for each constructor. -/

namespace Sys2Proof.Laws.OpcodeOfWord

/-- The word an operation is encoded as carries its operation code, matches its row of R50 under the mask
`0xF0000000`, and declares exactly the data bytes the operation has (R49, R50, R53). -/
def Statement (i : Instr) : Prop :=
  i.wellFormed = true →
    opField (encodeWord i) = i.opcode ∧
    encodeWord i &&& 0xF0000000#32 = i.opcode.zeroExtend 32 <<< 28 ∧
    dataCount (encodeWord i) = i.dataBytes.length

/-- What the operation code and the byte count of a word say suffices. -/
theorem of_opcode {i : Instr} (h : opField (encodeWord i) = i.opcode)
    (hn : i.wellFormed = true → dataCount (encodeWord i) = i.dataBytes.length) : Statement i :=
  fun hw => ⟨h, by rw [and_mask_eq, h], hn hw⟩

theorem ingest (b : Byte) : Statement (.ingest b) :=
  of_opcode (opField_packWord _ _ _ _) fun _ => by
    simp [dataCount, encodeWord, Instr.dataBytes]

theorem poll : Statement .poll :=
  of_opcode rfl fun _ => rfl

theorem hasframe : Statement .hasframe :=
  of_opcode rfl fun _ => rfl

theorem ckvalid : Statement .ckvalid :=
  of_opcode rfl fun _ => rfl

theorem take : Statement .take :=
  of_opcode rfl fun _ => rfl

theorem stage (src dst : Byte) (data : List Byte) : Statement (.stage src dst data) :=
  of_opcode (opField_packWord _ _ _ _) fun hw => by
    have : data.length ≤ 255 := of_decide_eq_true hw
    simp [dataCount, encodeWord, Instr.dataBytes]; omega

theorem tryflush : Statement .tryflush :=
  of_opcode rfl fun _ => rfl

theorem txpend : Statement .txpend :=
  of_opcode rfl fun _ => rfl

theorem msrc : Statement .msrc :=
  of_opcode rfl fun _ => rfl

theorem mlen : Statement .mlen :=
  of_opcode rfl fun _ => rfl

theorem mdst : Statement .mdst :=
  of_opcode rfl fun _ => rfl

theorem mpay (k : Byte) : Statement (.mpay k) :=
  of_opcode (opField_packWord _ _ _ _) fun _ => by
    simp [dataCount, encodeWord, Instr.dataBytes]

end Sys2Proof.Laws.OpcodeOfWord
end

