-- ==== Sys2Proof/Laws/Step.lean ====
section
/-! SUPPORT. What a step can be, and a run as a step and the rest of it. -/

namespace Sys2Proof.Machine

/-- A run of any machine that takes a step goes on from the state the step answers. -/
theorem run_of_next {M : Host.Core} {k : Nat} {s t : M.State} (h : M.step s = .next t) :
    M.run (k + 1) s = M.run k t := by
  simp only [Host.Core.run, h]

theorem run_of_refused {M : Host.Core} {k : Nat} {s : M.State} {r : M.Refusal} (h : M.step s = .refused r) :
    M.run (k + 1) s = .refused r := by
  simp only [Host.Core.run, h]

theorem run_of_fault {M : Host.Core} {k : Nat} {s : M.State} {f : M.Fault} (h : M.step s = .fault f) :
    M.run (k + 1) s = .fault f := by
  simp only [Host.Core.run, h]

/-- A run of this machine that takes a step goes on from the state the step answers. -/
theorem run_succ_of_next {k : Nat} {s t : State} (h : step s = .next t) :
    Host.Core.run Sys2Proof.core (k + 1) s = Host.Core.run Sys2Proof.core k t :=
  run_of_next (M := Sys2Proof.core) h

theorem run_succ_of_refused {k : Nat} {s : State} {r : Refusal} (h : step s = .refused r) :
    Host.Core.run Sys2Proof.core (k + 1) s = .refused r :=
  run_of_refused (M := Sys2Proof.core) h

theorem run_succ_of_fault {k : Nat} {s : State} {f : Fault} (h : step s = .fault f) :
    Host.Core.run Sys2Proof.core (k + 1) s = .fault f :=
  run_of_fault (M := Sys2Proof.core) h

/-- Every step that answers a next state is one of these (R9, R41, R48, R52). -/
theorem step_cases {s t : State} (h : step s = .next t) :
    (s.inputs = [] ∧ t = s) ∨
    (∃ w rest i rest', s.inputs = .cmd w :: rest ∧ fetchRequest w rest = .ok (i, rest') ∧
      exec i { s with inputs := rest' } = .next t) ∨
    (∃ w rest, s.inputs = .cmd w :: rest ∧ decode w (dataRun rest) = .error .badOp ∧
      t = refuse refBadOp { s with inputs := rest }) ∨
    (∃ u rest, s.inputs = .clock u :: rest ∧ t = clockTo u { s with inputs := rest }) ∨
    (∃ b rest, s.inputs = .receive b :: rest ∧ t = transportReceive b { s with inputs := rest }) ∨
    (∃ rest, s.inputs = .send :: rest ∧ t = transportSend { s with inputs := rest }) ∨
    (∃ rest, s.inputs = .reset :: rest ∧ t = hardwareReset { s with inputs := rest }) := by
  unfold step at h
  split at h
  · rename_i hs
    cases h
    exact .inl ⟨hs, rfl⟩
  · rename_i w rest hs
    split at h
    · rename_i r hr
      cases r with
      | badOp =>
        cases h
        refine .inr (.inr (.inl ⟨w, rest, hs, ?_, rfl⟩))
        unfold fetchRequest at hr
        split at hr
        · rename_i r' hd
          cases hr
          exact hd
        · cases hr
      | incomplete => cases h
    · rename_i i rest' hf
      exact .inr (.inl ⟨w, rest, i, rest', hs, hf, h⟩)
  · cases h
  · rename_i u rest hs
    cases h
    exact .inr (.inr (.inr (.inl ⟨u, rest, hs, rfl⟩)))
  · rename_i b rest hs
    cases h
    exact .inr (.inr (.inr (.inr (.inl ⟨b, rest, hs, rfl⟩))))
  · rename_i rest hs
    cases h
    exact .inr (.inr (.inr (.inr (.inr (.inl ⟨rest, hs, rfl⟩)))))
  · rename_i rest hs
    cases h
    exact .inr (.inr (.inr (.inr (.inr (.inr ⟨rest, hs, rfl⟩)))))

/-- What is decoded carries its word's operation code. -/
theorem opField_of_fetch {w : CmdWord} {rest rest' : List Input} {i : Instr}
    (h : fetchRequest w rest = .ok (i, rest')) : opField w = i.opcode := by
  unfold fetchRequest at h
  split at h
  · cases h
  · rename_i j left hd
    cases h
    apply BitVec.eq_of_toNat_eq
    unfold decode at hd
    split at hd <;> first
      | (cases hd; done)
      | (cases hd; assumption)
      | skip
    rename_i h6
    unfold decodeStage at hd
    split at hd
    · cases hd; exact h6
    · cases hd

end Sys2Proof.Machine
end

