-- ==== Sys2Proof/Tests/Slice0.lean ====
section
/-! SUPPORT. Tests of the model, their expected results taken from 95_test_vectors.md or worked out by hand
from the rule named, and for each statement a witness that meets its hypotheses. -/

open Sys2Proof Sys2Proof.Machine

namespace Sys2Proof.Tests

/-! ### Well-formedness -/

theorem wf_stage_replicate (n : Nat) (b : Byte) :
    (Instr.stage b b (List.replicate n b)).wellFormed = decide (n ≤ 255) := by
  simp [Instr.wellFormed]

/-- The one check: STAGE's byte count is an 8-bit field (R49), so 256 data bytes are refused. -/
theorem test_wf_stage_256_refused : (Instr.stage 0 0 (List.replicate 256 0)).wellFormed = false := by
  rw [wf_stage_replicate]; decide

theorem test_wf_stage_255 : (Instr.stage 0 0 (List.replicate 255 0)).wellFormed = true := by
  rw [wf_stage_replicate]; decide

/-! ### Decoding: words written out from R49, R50 and 95_test_vectors.md -/

/-- V-EN1, V-EN2: `rsv`, `b` and `n` are ignored. -/
theorem test_decode_ingest :
    decode 0x10800000 [] = .ok (.ingest 0x80, []) ∧ decode 0x1F80FFFF [] = .ok (.ingest 0x80, []) := by decide

theorem test_decode_poll : decode 0x20000000 [] = .ok (.poll, []) := by decide

theorem test_decode_hasframe : decode 0x30000000 [] = .ok (.hasframe, []) := by decide

theorem test_decode_ckvalid : decode 0x40000000 [] = .ok (.ckvalid, []) := by decide

theorem test_decode_take : decode 0x5FFFFFFF [] = .ok (.take, []) := by decide

/-- V-TX5: source, destination, count, and the byte behind the request stays. -/
theorem test_decode_stage :
    decode 0x60681803 [0x38, 0x03, 0x00, 0xEE] = .ok (.stage 0x68 0x18 [0x38, 0x03, 0x00], [0xEE]) := by
  decide

theorem test_decode_stage_short : decode 0x60681803 [0x38, 0x03] = .error .incomplete := by decide

theorem test_decode_tryflush : decode 0x70000000 [] = .ok (.tryflush, []) := by decide

theorem test_decode_txpend : decode 0x80000000 [] = .ok (.txpend, []) := by decide

theorem test_decode_msrc : decode 0x90000000 [] = .ok (.msrc, []) := by decide

theorem test_decode_mlen : decode 0xA0000000 [] = .ok (.mlen, []) := by decide

theorem test_decode_mdst : decode 0xB0000000 [] = .ok (.mdst, []) := by decide

/-- V-EN4. -/
theorem test_decode_mpay : decode 0xC0030000 [] = .ok (.mpay 3, []) := by decide

/-- V-EN5, V-EN6. -/
theorem test_decode_reserved :
    decode 0x00000000 [] = .error .badOp ∧ decode 0xD0000000 [] = .error .badOp ∧
    decode 0xE0000000 [] = .error .badOp ∧ decode 0xF0000000 [] = .error .badOp := by decide

/-- V-TX5's request, laid out by hand from R49. -/
theorem test_encode_stage : encode (.stage 0x68 0x18 [0x38, 0x03, 0x00]) = (0x60681803, [0x38, 0x03, 0x00]) := by
  decide

/-- The opcode table numbers a STAGE of 2 bytes with its data from bit 32 up; bits it does not give are 0. -/
theorem test_decodeTableWord :
    decodeTableWord 48 0x0C0B603F0002 = some (.stage 0x3F 0x00 [0x0B, 0x0C]) ∧
    decodeTableWord 32 0x603F0002 = some (.stage 0x3F 0x00 [0x00, 0x00]) ∧
    decodeTableWord 32 0xC0030000 = some (.mpay 3) ∧ decodeTableWord 32 0xD0000000 = none := by decide

/-! ### Small states -/

/-- A buffer with these bytes from index `k` up. -/
def listed : Nat → List Byte → Memory
  | _, [] => []
  | k, b :: bs => (k, b) :: listed (k + 1) bs

/-- Scenario A (L1-A). -/
def scenarioA : List Byte := [0x80, 0x05, 0xBF, 0x18, 0x00, 0x00, 0x22]

/-- V-TX1's frame. -/
def frameTx1 : List Byte := [0x3F, 0x03, 0x00, 0x0C, 0x30]

/-- A core that has accumulated `bs`, the last byte at time `ts`, the clock reading `now`. -/
def rxState (bs : List Byte) (ts now : Nat) : State :=
  { State.reset with
    rxBuf := listed 0 bs, rxLen := bs.length, rxPending := decide (ValidRun bs), rxTs := ts, now := now }

/-- A core that has staged V-TX1's frame, `rx_ts` being `ts`. -/
def txState (ts now : Nat) : State :=
  { State.reset with txBuf := listed 0 frameTx1, txLen := 5, txPending := true, rxTs := ts, now := now }

/-- A core that expects `rem` echo bytes and has `q` in `Q_rx`. -/
def echoState (rem : Nat) (q : List Byte) : State :=
  { State.reset with txBuf := listed 0 frameTx1, txLen := 5, echoRem := rem, qRx := q, now := 500 }

/-- A core with the snapshot of Scenario A. -/
def msgState (strict : Bool) : State :=
  { State.reset with
    msgBuf := listed 0 scenarioA, msgLen := 7, msgValid := true, cfg := { pbStrict := strict } }

/-- What an outcome says of its next state. -/
def seen {α : Type} (o : Host.Outcome State Fault Refusal) (f : State → α) : Option α :=
  match o with
  | .next t => some (f t)
  | .fault _ => none
  | .refused _ => none

/-- The response of a performed operation. -/
def ok (val : Byte) (ev : BitVec 8) : Option Response := some { ok := true, ref := 0, val := val, ev := ev }

/-! ### One step of each operation -/

/-- V-RX2 and V-RX3: a gap of 7 ms appends, a gap of 8 ms clears first and reports the timeout. -/
theorem test_ingest_gap :
    seen (exec (.ingest 0x05) (rxState [0x80] 100 107)) (fun t => (t.rxLen, t.rxTs, t.response)) =
      some (2, 107, ok 0 0x10) ∧
    seen (exec (.ingest 0x05) (rxState [0x80] 100 108)) (fun t => (t.rxLen, t.byteAt .rxBuf 0, t.response)) =
      some (1, some 0x05, ok 0 0x12) := by decide

/-- V-RX5, V-RX6: the gap is measured across a wrap of the clock. -/
theorem test_ingest_wrap :
    seen (exec (.ingest 0x05) (rxState [0x80] 0xFFFFFFFC 3)) (fun t => (t.rxLen, t.response)) =
      some (2, ok 0 0x10) ∧
    seen (exec (.ingest 0x05) (rxState [0x80] 0xFFFFFFFC 4)) (fun t => (t.rxLen, t.response)) =
      some (1, ok 0 0x12) := by decide

/-- V-RX12: an echo byte is discarded. -/
theorem test_poll_echo :
    seen (exec .poll (echoState 2 [0x3F, 0x05])) (fun t => (t.echoRem, t.qRx, t.rxLen, t.rxTs, t.response)) =
      some (1, [0x05], 0, 0, ok 0 0x08) := by decide

/-- V-RX13: while a frame is pending the byte is ingested, and nothing is flushed. -/
theorem test_poll_pending :
    seen (exec .poll { txState 495 500 with echoRem := 2, qRx := [0x3F] })
      (fun t => (t.rxLen, t.rxTs, t.echoRem, t.qTx, t.response)) = some (1, 500, 2, [], ok 0 0x10) := by decide

/-- V-RX7 (the smallest frame) and V-RX8 (a declared length of 2 never completes). -/
theorem test_hasframe :
    seen (exec .hasframe (rxState [0x01, 0x03, 0x02, 0xAB, 0xAB] 10 10)) State.response = some (ok 1 0) ∧
    seen (exec .hasframe (rxState [0x3F, 0x02, 0x00, 0x3D] 10 10)) State.response = some (ok 0 0) := by decide

/-- V-CK0 and V-CK1. -/
theorem test_ckvalid :
    seen (exec .ckvalid (rxState scenarioA 10 10)) State.response = some (ok 1 0) ∧
    seen (exec .ckvalid (rxState [0x81, 0x05, 0xBF, 0x18, 0x00, 0x00, 0x22] 10 10)) State.response =
      some (ok 0 0) := by decide

/-- P1 step 10: TAKE of Scenario A. -/
theorem test_take_valid :
    seen (exec .take (rxState scenarioA 1000 1001)) (fun t => (t.msgBuf, t.msgLen)) =
      some (listed 0 scenarioA, 7) ∧
    seen (exec .take (rxState scenarioA 1000 1001)) (fun t => (t.rxLen, t.rxTs, t.response)) =
      some (0, 1001, ok 1 0x40) := by decide

/-- L1-B: TAKE of a frame whose checksum fails. -/
theorem test_take_ckfail :
    seen (exec .take (rxState [0x80, 0x05, 0xBF, 0x18, 0x00, 0x00, 0x23] 10 11))
      (fun t => (t.rxLen, t.rxTs, t.msgValid, t.response)) = some (0, 11, false, ok 0 0x04) := by decide

/-- V-TX1. -/
theorem test_stage :
    seen (exec (.stage 0x3F 0x00 [0x0C]) State.reset) (fun t => (t.txBuf, t.txLen)) =
      some (listed 0 [0x3F, 0x03, 0x00, 0x0C, 0x30], 5) ∧
    seen (exec (.stage 0x3F 0x00 [0x0C]) State.reset) (fun t => (t.txPending, t.qTx, t.response)) =
      some (true, [], ok 0 0) := by decide

/-- V-TX4: 13 payload bytes do not fit; what was staged stays. -/
theorem test_stage_oversize :
    seen (exec (.stage 0xF0 0x68 (List.replicate 13 1)) (txState 0 0)) (fun t => (t.txLen, t.txPending, t.response)) =
      some (5, true, some { ok := false, ref := 2, val := 0, ev := 0 }) := by decide

/-- V-TX6 and V-TX7: 31 ms of silence do not suffice, 32 do. -/
theorem test_tryflush :
    seen (exec .tryflush (txState 1000 1031)) (fun t => (t.qTx, t.txPending, t.response)) =
      some ([], true, ok 0 0) ∧
    seen (exec .tryflush (txState 1000 1032)) (fun t => (t.qTx, t.txPending, t.echoRem, t.txLen, t.response)) =
      some ([0x3F, 0x03, 0x00, 0x0C, 0x30], false, 5, 5, ok 1 0x20) := by decide

/-- V-TX11. -/
theorem test_txpend :
    seen (exec .txpend State.reset) State.response = some (ok 0 0) ∧
    seen (exec .txpend (txState 0 0)) State.response = some (ok 1 0) := by decide

/-- V-MV1, and V-MV6 for each of the three. -/
theorem test_views :
    seen (exec .msrc (msgState false)) State.response = some (ok 0x80 0) ∧
    seen (exec .mlen (msgState false)) State.response = some (ok 0x05 0) ∧
    seen (exec .mdst (msgState false)) State.response = some (ok 0xBF 0) ∧
    seen (exec .mdst State.reset) State.response = some (some { ok := false, ref := 3, val := 0, ev := 0 }) := by
  decide

/-- V-MV2 to V-MV5. -/
theorem test_mpay :
    seen (exec (.mpay 0) (msgState false)) State.response = some (ok 0x18 0) ∧
    seen (exec (.mpay 3) (msgState false)) State.response = some (ok 0x22 0) ∧
    seen (exec (.mpay 3) (msgState true)) State.response = some (ok 0x00 0) ∧
    seen (exec (.mpay 0xFF) (msgState false)) State.response = some (ok 0x00 0) := by decide

/-- U9: a byte at the length register has no value, though something was stored there before; R35: an index
outside the buffer is none of its bytes. -/
theorem test_read_beyond_length :
    readByte .rxBuf 1 { rxState [0x80, 0x05] 10 10 with rxLen := 2 } = .ok 0x05 ∧
    readByte .rxBuf 1 { rxState [0x80, 0x05] 10 10 with rxLen := 1 } = .error (.beyondLength .rxBuf 1) ∧
    readByte .txBuf 16 State.reset = .error (.indexOutOfRange .txBuf 16) := by decide

/-! ### Steps -/

/-- V-EN5: a reserved code is refused and the port goes on. -/
theorem test_step_badop :
    seen (step { State.reset with inputs := [.cmd 0x00000000, .send] }) (fun t => (t.inputs, t.response)) =
      some ([.send], some { ok := false, ref := 1, val := 0, ev := 0 }) := by decide

/-- Placed by its number of the opcode table, a STAGE is the first thing that runs after reset. -/
theorem test_withFetchWord :
    seen (step (State.reset.withFetchWord 40 0x0C603F0001)) (fun t => (t.txBuf, t.inputs)) =
      some (listed 0 [0x3F, 0x03, 0x00, 0x0C, 0x30], []) := by decide

/-- R57: `DRAIN` polls once on an empty queue, else once a byte; `LOOPBACK` moves `Q_tx` to `Q_rx`. -/
theorem test_script :
    drain State.reset 9 = [.clock 9, .cmd 0x20000000] ∧
    drain (echoState 2 [0x3F, 0x05]) 9 = [.clock 9, .cmd 0x20000000, .clock 9, .cmd 0x20000000] ∧
    burst [0x80, 0x05] 7 = [.clock 7, .cmd 0x10800000, .clock 7, .cmd 0x10050000] ∧
    loopback { State.reset with qTx := [0x3F, 0x03] } = [.send, .receive 0x3F, .send, .receive 0x03] := by decide

/-! ### Witnesses: concrete values that meet the hypotheses of each statement -/

theorem listed_get (bs : List Byte) : ∀ j k, Memory.get (listed j bs) (j + k) = bs[k]? := by
  induction bs with
  | nil => intro j k; rfl
  | cons b bs ih =>
    intro j k
    cases k with
    | zero => simp [listed, Memory.get]
    | succ k => simpa [listed, Memory.get, Nat.add_assoc, Nat.add_comm 1 k] using ih (j + 1) k

theorem listed_wf (bs : List Byte) : ∀ j, j + bs.length ≤ 255 →
    Memory.wf 255 (listed j bs) ∧ ∀ c ∈ listed j bs, j ≤ c.1 := by
  induction bs with
  | nil => intro j _; simp [listed, Memory.wf]
  | cons b bs ih =>
    intro j h
    simp only [List.length_cons] at h
    obtain ⟨⟨h1, h2⟩, h3⟩ := ih (j + 1) (by omega)
    refine ⟨⟨List.pairwise_cons.2 ⟨fun c hc => h3 c hc, h1⟩, ?_⟩, ?_⟩ <;> intro c hc <;>
      rcases List.mem_cons.1 hc with rfl | hc
    · show j < 255; omega
    · exact h2 c hc
    · exact Nat.le_refl j
    · exact Nat.le_of_succ_le (h3 c hc)

/-- A receive buffer holding any run of at most 255 bytes, at any time. -/
theorem wit_rxState {bs : List Byte} {ts now : Nat} (h : bs.length ≤ 255) (hts : ts < 2 ^ 32) (hn : now < 2 ^ 32) :
    Consistent (rxState bs ts now) ∧ bs.length = (rxState bs ts now).rxLen ∧
    Holds .rxBuf bs (rxState bs ts now) := by
  have h0 : Consistent { State.reset with now := now } := by
    have := Consistent.of_checks (s := State.reset) [] [] (by decide)
    exact { this with nowRange := hn, rxPendingValid := rfl }
  have hget : ∀ k, k < bs.length → Memory.get (listed 0 bs) k = bs[k]? := fun k _ => by
    simpa using listed_get bs 0 k
  have h1 := h0.withRx (m := listed 0 bs) (run := bs) (ts := ts) hts h
    (listed_wf bs 0 (by simpa using h)).1 hget
  exact ⟨h1, rfl, hget⟩

theorem wit_consistent_rx : Consistent (rxState scenarioA 100 107) := .of_checks [] [] (by decide)

theorem wit_consistent_tx : Consistent (txState 1000 1032) := .of_checks frameTx1 [] (by decide)

theorem wit_consistent_echo : Consistent (echoState 2 [0x3F, 0x05]) := .of_checks frameTx1 [] (by decide)

theorem wit_consistent_msg (strict : Bool) : Consistent (msgState strict) :=
  .of_checks [] scenarioA (by cases strict <;> decide)

/-- The last value of a 32-bit clock. -/
theorem wit_ResetLeavesSpecifiedState : (0xFFFFFFFF : Nat) < ({} : Config).timeRange := by decide

theorem wit_ResetStepSparesTransportAndClock :
    ({ txState 1000 1032 with inputs := [.reset, .send] }).inputs = .reset :: [Input.send] ∧
    ({ txState 1000 1032 with inputs := [.reset, .send] }).now < (txState 1000 1032).cfg.timeRange := by decide

/-- Both ends of the range of `TXCAP`, the least `TSW`. -/
theorem wit_ResetIsConsistent :
    ({ txCap := 4, tsw := 8 } : Config).legal ∧ ({ txCap := 255, tsw := 8 } : Config).legal := by decide

/-- The longest frame that fits at the default capacity; a byte waiting in `Q_rx` and none. -/
theorem wit_FirstOperationsAfterReset :
    ({} : Config).legal ∧
    ({ clockTo 5000 (State.resetAt {} 7) with qRx := [0x80], qTx := [0x3F] }).qRx = 0x80 :: [] ∧
    ({ clockTo 5000 (State.resetAt {} 7) with qRx := [], qTx := [] }).qRx = [] ∧
    (List.replicate 12 (0x01 : Byte)).length + 4 ≤ ({} : Config).txCap := by decide

theorem wit_StepRunsDecodedRequest :
    decode 0x603F0001 [0x0C] = .ok (.stage 0x3F 0x00 [0x0C], []) ∧
    ({ State.reset with inputs := [.cmd 0x603F0001, .data 0x0C, .send] }).inputs =
      .cmd 0x603F0001 :: ([(0x0C : Byte)].map .data ++ [.send]) := by decide

/-- The four reserved codes, other fields arbitrary. -/
theorem wit_ReservedCodesRefused :
    opField 0x00FFFFFF = 0x0 ∧ opField 0xD0000001 = 0xD ∧ opField 0xE1000000 = 0xE ∧
    opField 0xFFFFFFFF = 0xF ∧
    ({ State.reset with inputs := [.cmd 0xFFFFFFFF, .send] }).inputs = .cmd 0xFFFFFFFF :: [.send] := by decide

/-- The shortest frame that does not fit at the default capacity. -/
theorem wit_OversizeStageDropsItsData :
    (List.replicate 13 (0x01 : Byte)).length ≤ 255 ∧
    State.reset.cfg.txCap < (List.replicate 13 (0x01 : Byte)).length + 4 ∧
    ({ State.reset with inputs := request (.stage 1 2 (List.replicate 13 0x01)) ++ [Input.send] }).inputs =
      request (.stage 1 2 (List.replicate 13 0x01)) ++ [Input.send] := by decide

/-- One state for each clause; the clock takes the last value of its range, and the first beyond it. -/
theorem wit_TransportAndClockSteps :
    ({ State.reset with inputs := [.receive 0xAA] }).inputs = .receive 0xAA :: [] ∧
    ({ State.reset with inputs := [.send], qTx := [0x3F] }).inputs = .send :: [] ∧
    ({ State.reset with inputs := [.send], qTx := [0x3F] }).qTx = 0x3F :: [] ∧
    ({ State.reset with inputs := [.send] }).qTx = [] ∧
    ({ State.reset with inputs := [.clock 0xFFFFFFFF] }).inputs = .clock 0xFFFFFFFF :: [] ∧
    0xFFFFFFFF < State.reset.cfg.timeRange ∧
    ({ State.reset with inputs := [.clock 0x100000000] }).inputs = .clock 0x100000000 :: [] ∧
    State.reset.inputs = [] := by decide

/-- The longest payload a request can carry. -/
theorem wit_DecodeEncodeAgree : (Instr.stage 0xFF 0xFF (List.replicate 255 0xFF)).wellFormed = true := by
  rw [wf_stage_replicate]; decide

theorem wit_IgnoredFieldsDoNotMatter :
    opField 0x10800000 = opField 0x1F80FFFF ∧ aField 0x10800000 = aField 0x1F80FFFF ∧
    opField 0x10800000 ≠ 0x6 := by decide

/-- Both ends of the assigned codes. -/
theorem wit_DecodeFollowsMatchAndMask :
    decode 0x1F80FFFF [] = .ok (.ingest 0x80, []) ∧
    1 ≤ (opField 0x1F80FFFF).toNat ∧ (opField 0xCFFFFFFF).toNat ≤ 12 ∧
    dataCount 0x603F0001 ≤ [(0x0C : Byte)].length := by decide

theorem wit_StepKeepsConsistency :
    Consistent (rxState scenarioA 100 107) ∧ step (rxState scenarioA 100 107) = .next (rxState scenarioA 100 107) :=
  ⟨wit_consistent_rx, rfl⟩

theorem wit_EveryOperationCompletes : Consistent (txState 1000 1032) := wit_consistent_tx

theorem wit_RunsNeverFault : Consistent (echoState 2 [0x3F, 0x05]) := wit_consistent_echo

theorem wit_OnlyMalformedRequestsStop :
    Consistent { State.reset with inputs := [.data 0x00] } ∧
    Consistent { State.reset with inputs := [.cmd 0x603F0001, .send] } :=
  ⟨.of_checks [] [] (by decide), .of_checks [] [] (by decide)⟩

/-- A run of 254 bytes and one of 255, the last that is not cleared and the first that is; a gap of 7 ms and
one of 8 ms. -/
theorem wit_IngestAppendsToRun :
    (Consistent (rxState (List.replicate 254 0xFD) 100 107) ∧
      (List.replicate 254 (0xFD : Byte)).length = (rxState (List.replicate 254 0xFD) 100 107).rxLen ∧
      Holds .rxBuf (List.replicate 254 0xFD) (rxState (List.replicate 254 0xFD) 100 107)) ∧
    (Consistent (rxState (List.replicate 255 0xFD) 100 108) ∧
      (List.replicate 255 (0xFD : Byte)).length = (rxState (List.replicate 255 0xFD) 100 108).rxLen ∧
      Holds .rxBuf (List.replicate 255 0xFD) (rxState (List.replicate 255 0xFD) 100 108)) ∧
    elapsed State.reset.cfg 107 100 < State.reset.cfg.tGap ∧ State.reset.cfg.tGap ≤ elapsed State.reset.cfg 108 100 :=
  ⟨wit_rxState (by rw [List.length_replicate]; decide) (by decide) (by decide),
    wit_rxState (by rw [List.length_replicate]) (by decide) (by decide), by decide, by decide⟩

theorem wit_BurstIsStoredInOrder :
    Consistent State.reset ∧ State.reset.rxLen = 0 ∧ 0 < State.reset.cfg.tGap ∧
    0 < (List.replicate 255 (0xFD : Byte)).length ∧ (List.replicate 255 (0xFD : Byte)).length ≤ 255 :=
  ⟨.of_checks [] [] (by decide), by decide, by decide, by rw [List.length_replicate]; decide,
    by rw [List.length_replicate]⟩

theorem wit_OverflowClearsAtNextByte :
    Consistent State.reset ∧ State.reset.rxLen = 0 ∧ 0 < State.reset.cfg.tGap ∧
    (List.replicate 255 (0x00 : Byte)).length = 255 :=
  ⟨.of_checks [] [] (by decide), by decide, by decide, List.length_replicate ..⟩

/-- 7 ms between the bytes, across a wrap of the clock; and the buffer filled to its last byte. -/
theorem wit_OverrunLosesFrameForGood :
    Consistent (rxState scenarioA 0xFFFFFFFA 0xFFFFFFFA) ∧
    scenarioA.length = (rxState scenarioA 0xFFFFFFFA 0xFFFFFFFA).rxLen ∧
    Holds .rxBuf scenarioA (rxState scenarioA 0xFFFFFFFA 0xFFFFFFFA) ∧ CompleteRun scenarioA ∧
    [(1, (0x80 : Byte)), (8, 0x05)] ≠ [] ∧ InTime {} 0xFFFFFFFA [(1, 0x80), (8, 0x05)] ∧
    (rxState scenarioA 0 0).rxLen + (List.replicate 248 (0, (0x00 : Byte))).length ≤ 255 :=
  ⟨.of_checks [] [] (by decide), by decide, by decide, by decide, by decide,
    ⟨by decide, by decide, trivial⟩, by rw [List.length_replicate]; decide⟩

/-- A run that declares 2, the largest length that is too small, and one that declares 254. -/
theorem wit_UnframeableLengthsNeverComplete :
    (Consistent (rxState [0x3F, 0x02, 0x00, 0x3D] 10 10) ∧
      Holds .rxBuf [0x3F, 0x02, 0x00, 0x3D] (rxState [0x3F, 0x02, 0x00, 0x3D] 10 10) ∧
      [(0x3F : Byte), 0x02, 0x00, 0x3D][1]? = some 0x02 ∧ (0x02 : Byte).toNat ≤ 2) ∧
    (Consistent (rxState [0x3F, 0xFE] 10 10) ∧ Holds .rxBuf [0x3F, 0xFE] (rxState [0x3F, 0xFE] 10 10) ∧
      [(0x3F : Byte), 0xFE][1]? = some 0xFE ∧ 254 ≤ (0xFE : Byte).toNat) :=
  ⟨⟨.of_checks [] [] (by decide), by decide, by decide, by decide⟩,
    ⟨.of_checks [] [] (by decide), by decide, by decide, by decide⟩⟩

/-- The last echo byte. -/
theorem wit_PollDiscardsEcho :
    (echoState 1 [0x3F, 0x05]).qRx = 0x3F :: [0x05] ∧ 0 < (echoState 1 [0x3F, 0x05]).echoRem ∧
    (echoState 1 [0x3F, 0x05]).txPending = false := by decide

/-- Nothing expected, and a frame pending within the echo window. -/
theorem wit_PollIngestsHeadOfQueue :
    (Consistent (echoState 0 [0x80]) ∧ (echoState 0 [0x80]).qRx = 0x80 :: [] ∧ (echoState 0 [0x80]).echoRem = 0 ∧
      0 < (echoState 0 [0x80]).cfg.tIdle) ∧
    (Consistent { txState 495 500 with echoRem := 2, qRx := [0x3F] } ∧ (txState 495 500).txPending = true) :=
  ⟨⟨.of_checks frameTx1 [] (by decide), by decide, by decide, by decide⟩,
    ⟨.of_checks frameTx1 [] (by decide), by decide⟩⟩

/-- `T_IDLE` reached and not reached. -/
theorem wit_PollOnEmptyQueueIsFlushStep :
    Consistent (txState 1000 1032) ∧ (txState 1000 1032).qRx = [] ∧ Consistent (txState 1000 1031) ∧
    (txState 1000 1031).qRx = [] :=
  ⟨wit_consistent_tx, rfl, .of_checks frameTx1 [] (by decide), rfl⟩

theorem wit_HasframeReportsComplete :
    Consistent (rxState scenarioA 100 107) ∧ scenarioA.length = (rxState scenarioA 100 107).rxLen ∧
    Holds .rxBuf scenarioA (rxState scenarioA 100 107) :=
  ⟨wit_consistent_rx, by decide, by decide⟩

theorem wit_CkvalidReportsValid :
    Consistent (rxState scenarioA 100 107) ∧ scenarioA.length = (rxState scenarioA 100 107).rxLen ∧
    Holds .rxBuf scenarioA (rxState scenarioA 100 107) := wit_HasframeReportsComplete

theorem wit_ChecksumFormulasAgree : CompleteRun scenarioA ∧ scenarioA[1]? = some 0x05 := by decide

/-- A frame for each branch: valid, complete with a wrong checksum, incomplete by one byte. -/
theorem wit_TakeExtractsOrDiscards :
    (Consistent (rxState scenarioA 100 107) ∧ Holds .rxBuf scenarioA (rxState scenarioA 100 107) ∧
      ValidRun scenarioA) ∧
    (Consistent (rxState (scenarioA.set 6 0x23) 10 11) ∧
      Holds .rxBuf (scenarioA.set 6 0x23) (rxState (scenarioA.set 6 0x23) 10 11) ∧
      CompleteRun (scenarioA.set 6 0x23) ∧ xorAll (scenarioA.set 6 0x23) ≠ 0) ∧
    (Consistent (rxState (scenarioA.take 6) 10 11) ∧
      Holds .rxBuf (scenarioA.take 6) (rxState (scenarioA.take 6) 10 11) ∧ ¬ CompleteRun (scenarioA.take 6)) :=
  ⟨⟨wit_consistent_rx, by decide, by decide⟩,
    ⟨.of_checks [] [] (by decide), by decide, by decide, by decide⟩,
    ⟨.of_checks [] [] (by decide), by decide, by decide⟩⟩

theorem wit_TakenFrameIsConsumed :
    Consistent (rxState scenarioA 100 107) ∧ scenarioA.length = (rxState scenarioA 100 107).rxLen ∧
    Holds .rxBuf scenarioA (rxState scenarioA 100 107) ∧ ValidRun scenarioA :=
  ⟨wit_consistent_rx, by decide, by decide, by decide⟩

/-- V-CK1, V-CK2 (the length byte) and V-CK4 (the last payload byte). -/
theorem wit_OneChangedByteFailsChecksum :
    Consistent (rxState scenarioA 100 107) ∧ scenarioA.length = (rxState scenarioA 100 107).rxLen ∧
    Holds .rxBuf scenarioA (rxState scenarioA 100 107) ∧ ValidRun scenarioA ∧
    (0 + 1 < scenarioA.length ∧ scenarioA[0]? ≠ some 0x81) ∧
    (1 + 1 < scenarioA.length ∧ scenarioA[1]? ≠ some 0x04) ∧
    (5 + 1 < scenarioA.length ∧ scenarioA[5]? ≠ some 0x40) :=
  ⟨wit_consistent_rx, by decide, by decide, by decide, by decide, by decide, by decide⟩

/-- An empty payload, the longest that fits and the shortest that does not, at the default capacity. -/
theorem wit_StageBuildsFrame :
    ([] : List Byte).length + 4 ≤ State.reset.cfg.txCap ∧
    (List.replicate 12 (0x01 : Byte)).length + 4 ≤ State.reset.cfg.txCap ∧ State.reset.cfg.txCap ≤ 255 ∧
    State.reset.cfg.txCap < (List.replicate 13 (0x01 : Byte)).length + 4 := by decide

/-- `T_IDLE` reached exactly, missed by one, and nothing pending. -/
theorem wit_TryflushSendsWhenIdle :
    Consistent (txState 1000 1032) ∧ (txState 1000 1032).txPending = true ∧
    (txState 1000 1032).cfg.tIdle ≤ elapsed (txState 1000 1032).cfg 1032 1000 ∧
    frameTx1.length = (txState 1000 1032).txLen ∧ Holds .txBuf frameTx1 (txState 1000 1032) ∧
    elapsed (txState 1000 1031).cfg 1031 1000 < (txState 1000 1031).cfg.tIdle ∧
    (echoState 2 []).txPending = false :=
  ⟨wit_consistent_tx, by decide, by decide, by decide, by decide, by decide, by decide⟩

theorem wit_ViewsReadHeader :
    Consistent (msgState false) ∧ (msgState false).msgValid = true ∧
    scenarioA.length = (msgState false).msgLen ∧ Holds .msgBuf scenarioA (msgState false) ∧
    Consistent (txState 1000 1032) ∧ (txState 1000 1032).msgValid = false :=
  ⟨wit_consistent_msg false, by decide, by decide, by decide, wit_consistent_tx, by decide⟩

/-- `L` is 5: offset 3 is the last within the original bound and 4 the first beyond; 2 and 3 under
`PB_STRICT`. -/
theorem wit_MpayReadsWithinBound :
    (∀ strict, Consistent (msgState strict)) ∧ (msgState false).msgValid = true ∧
    scenarioA.length = (msgState true).msgLen ∧ Holds .msgBuf scenarioA (msgState true) ∧
    Holds .msgBuf scenarioA (msgState false) ∧ scenarioA[1]? = some 0x05 ∧
    (msgState false).cfg.pbStrict = false ∧ (msgState true).cfg.pbStrict = true ∧
    (3 : Byte).toNat ≤ (0x05 : Byte).toNat - 2 ∧ (0x05 : Byte).toNat - 2 < (4 : Byte).toNat ∧
    (2 : Byte).toNat ≤ (0x05 : Byte).toNat - 3 ∧ (0x05 : Byte).toNat - 3 < (3 : Byte).toNat ∧
    Consistent (txState 1000 1032) ∧ (txState 1000 1032).msgValid = false :=
  ⟨wit_consistent_msg, by decide, by decide, by decide, by decide, by decide, by decide, by decide,
    by decide, by decide, by decide, by decide, wit_consistent_tx, by decide⟩

/-- A TAKE that produces a message, and a reset. -/
theorem wit_OnlyTakeReplacesSnapshot :
    seen (step { rxState scenarioA 1000 1001 with inputs := [.cmd 0x50000000] }) State.msgLen = some 7 ∧
    seen (step { msgState false with inputs := [.reset] }) State.msgLen = some 0 := by decide

theorem wit_TransmitOnlyWhenIdle :
    seen (step { txState 1000 1032 with inputs := [.cmd 0x70000000] }) State.qTx = some frameTx1 ∧
    seen (step { txState 1000 1032 with qTx := [0x01, 0x02], inputs := [.send] }) State.qTx = some [0x02] := by
  decide

/-- A byte has just arrived; the clock then moves to the last moment at which nothing may be sent. -/
theorem wit_NothingSentWithinIdleTime :
    Consistent { txState 1000 1000 with inputs := [.clock 1031, .cmd 0x20000000, .send] } ∧
    (txState 1000 1000).rxTs = (txState 1000 1000).now ∧ 0 < (txState 1000 1000).cfg.tIdle ∧
    ClockQuiet (txState 1000 1000).cfg 1000 0 [.clock 1031, .cmd 0x20000000, .send] ∧
    ∃ t, Host.Core.run Sys2Proof.core 3
      { txState 1000 1000 with inputs := [.clock 1031, .cmd 0x20000000, .send] } = .next t :=
  ⟨.of_checks frameTx1 [] (by decide), by decide, by decide,
    ⟨by decide, by decide, trivial⟩, _, rfl⟩

/-- A discarded byte, a flush, a reset. -/
theorem wit_EchoCounterChanges :
    seen (step { echoState 2 [0x3F] with inputs := [.cmd 0x20000000] }) State.echoRem = some 1 ∧
    seen (step { txState 1000 1032 with inputs := [.cmd 0x20000000] }) State.echoRem = some 5 ∧
    seen (step { echoState 2 [0x3F] with inputs := [.reset] }) State.echoRem = some 0 := by decide

theorem wit_TimestampOnlyTakesNow :
    Consistent { rxState scenarioA 100 107 with inputs := [.cmd 0x50000000] } ∧
    seen (step { rxState scenarioA 100 107 with inputs := [.cmd 0x50000000] }) State.rxTs = some 107 :=
  ⟨.of_checks [] [] (by decide), by decide⟩

theorem wit_ParametersAndClockAreInputs :
    seen (step { State.reset with inputs := [.clock 77] }) State.now = some 77 := by decide

theorem wit_ReceiveOpsSpareTransmitSide :
    (seen (exec (.ingest 0x80) (txState 1000 1032)) State.txLen = some 5) ∧
    (seen (exec .take (rxState scenarioA 100 107)) State.rxLen = some 0) := by decide

theorem wit_PollFrame :
    seen (exec .poll (echoState 2 [0x3F, 0x05])) State.qRx = some [0x05] ∧
    seen (exec .poll (echoState 0 [])) State.qRx = some [] ∧
    seen (exec .poll (echoState 0 [0x80])) State.rxLen = some 1 := by decide

theorem wit_QueriesChangeNothing :
    (seen (exec .hasframe (rxState scenarioA 100 107)) State.rxLen = some 7) ∧
    (seen (exec (.mpay 4) (msgState false)) State.msgLen = some 7) := by decide

/-- Each kind of refusal, and an operation that is performed. -/
theorem wit_RefusalsChangeNothing :
    seen (exec (.stage 1 2 (List.replicate 13 1)) State.reset) State.response =
      some (some { ok := false, ref := 2, val := 0, ev := 0 }) ∧
    seen (exec (.mpay 0) State.reset) State.response = some (some { ok := false, ref := 3, val := 0, ev := 0 }) ∧
    seen (exec .txpend State.reset) State.response = some (ok 0 0) := by decide

/-- A POLL that flushes and an INGEST that reports a timeout. -/
theorem wit_EventVectorForm :
    0 < (txState 1000 1032).cfg.tIdle ∧ seen (exec .poll (txState 1000 1032)) State.response = some (ok 0 0x20) ∧
    seen (exec (.ingest 0x05) (rxState [0x80] 100 108)) State.response = some (ok 0 0x12) := by decide

/-- The longest interval a clock of 8 bits measures, across its wrap. -/
theorem wit_ElapsedIsModularDifference : 255 < ({ tsw := 8 } : Config).timeRange := by decide

/-- Each state of the receive machine. -/
theorem wit_ReceiveMachineTransitions :
    Consistent (rxState scenarioA 100 107) ∧ rxPhase (rxState scenarioA 100 107) = .ok .completeValid ∧
    rxPhase (rxState (scenarioA.set 6 0x23) 100 107) = .ok .completeInvalid ∧
    rxPhase (rxState (scenarioA.take 6) 100 107) = .ok .accumulating ∧ rxPhase State.reset = .ok .empty :=
  ⟨wit_consistent_rx, by decide, by decide, by decide, by decide⟩

theorem wit_OtherOpsKeepReceiveMachine :
    (∀ b, Instr.tryflush ≠ .ingest b) ∧ Instr.tryflush ≠ .poll ∧ Instr.tryflush ≠ .take ∧
    seen (exec .tryflush (txState 1000 1032)) State.rxTs = some 1000 :=
  ⟨(fun _ h => by cases h), by decide, by decide, by decide⟩

/-- Each state of the transmit path. -/
theorem wit_TransmitPathTransitions :
    Consistent (txState 1000 1032) ∧ txPhase (txState 1000 1032) = .staged ∧
    Consistent (echoState 2 [0x3F, 0x05]) ∧ txPhase (echoState 2 [0x3F, 0x05]) = .echo ∧
    (echoState 2 [0x3F, 0x05]).qRx ≠ [] ∧ txPhase State.reset = .idle :=
  ⟨wit_consistent_tx, by decide, wit_consistent_echo, by decide, by decide, by decide⟩

/-- The shortest payload and the longest, the sender idle for exactly `T_IDLE`; the frame of the shortest
arrives with gaps of 7 ms. -/
theorem wit_StagedFrameRoundTrips :
    Consistent { State.reset with now := 32 } ∧ Consistent State.reset ∧ 1 ≤ [(0x0C : Byte)].length ∧
    (List.replicate 12 (0x01 : Byte)).length + 4 ≤ State.reset.cfg.txCap ∧
    State.reset.cfg.tIdle ≤ elapsed State.reset.cfg 32 0 ∧ State.reset.rxLen = 0 ∧
    [(90, (0x3F : Byte)), (97, 0x03), (104, 0x00), (111, 0x0C), (118, 0x30)].map Prod.snd = frameTx1 ∧
    GapsBelow State.reset.cfg [(90, 0x3F), (97, 0x03), (104, 0x00), (111, 0x0C), (118, 0x30)] :=
  ⟨.of_checks [] [] (by decide), .of_checks [] [] (by decide), by decide, by decide, by decide, by decide,
    by decide, ⟨by decide, by decide, by decide, by decide, trivial⟩⟩

end Sys2Proof.Tests
end

section
/-! PROOFS. The scope of the machine (00_scope.md): the clock and the parameters are inputs of the core that
no operation drives (R4, R9), and `Elapsed` is the difference of two clock values modulo `2^TSW` (R7, R58). -/

namespace Sys2Proof.Machine

/-! ### What the core only reads -/

/-- Two states agree on what the core reads and never writes: the parameters (R4), the clock (R9), and the
actions of the outside world still to come (R41). -/
structure SameEnvironment (s t : State) : Prop where
  cfg : t.cfg = s.cfg
  now : t.now = s.now
  inputs : t.inputs = s.inputs

theorem SameEnvironment.trans {s t u : State} (hst : SameEnvironment s t) (htu : SameEnvironment t u) :
    SameEnvironment s u :=
  ⟨htu.cfg.trans hst.cfg, htu.now.trans hst.now, htu.inputs.trans hst.inputs⟩

theorem sameEnvironment_respond (v : Byte) (e : BitVec 8) (s : State) : SameEnvironment s (respond v e s) :=
  ⟨rfl, rfl, rfl⟩

theorem sameEnvironment_refuse (r : BitVec 2) (s : State) : SameEnvironment s (refuse r s) :=
  ⟨rfl, rfl, rfl⟩

theorem sameEnvironment_of_ingestByte {b : Byte} {s t : State} (h : ingestByte b s = .ok t) :
    SameEnvironment s t := by
  obtain ⟨m, n, pend, rfl, -⟩ := ingestByte_cases h
  exact ⟨rfl, rfl, rfl⟩

theorem sameEnvironment_of_pollByte {s t : State} {ev : BitVec 8} (h : pollByte s = .ok (t, ev)) :
    SameEnvironment s t := by
  obtain ⟨-, rfl, -⟩ | ⟨b, rest, -, -, -, -, rfl⟩ | ⟨b, rest, -, -, -, hb⟩ := pollByte_cases h
  · exact ⟨rfl, rfl, rfl⟩
  · exact ⟨rfl, rfl, rfl⟩
  · obtain ⟨hcfg, hnow, hinputs⟩ := sameEnvironment_of_ingestByte hb
    exact ⟨hcfg, hnow, hinputs⟩

theorem sameEnvironment_of_flushStep {s t : State} {tLast : Nat} {fired : Bool}
    (h : flushStep tLast s = .ok (t, fired)) : SameEnvironment s t := by
  obtain ⟨-, rfl, -⟩ | ⟨-, -, -, bs, -, rfl⟩ := flushStep_cases h
  · exact ⟨rfl, rfl, rfl⟩
  · exact ⟨rfl, rfl, rfl⟩

theorem sameEnvironment_of_viewMessage {view : Except Fault Byte} {s t : State}
    (h : viewMessage view s = .next t) : SameEnvironment s t := by
  obtain ⟨-, rfl⟩ | ⟨-, v, -, rfl⟩ := viewMessage_cases h
  · exact sameEnvironment_refuse _ _
  · exact sameEnvironment_respond _ _ _

/-- No operation drives the clock, the parameters or the outside world (R4, R9, R41). -/
theorem sameEnvironment_of_exec {i : Instr} {s t : State} (h : exec i s = .next t) : SameEnvironment s t := by
  cases i with
  | ingest b =>
    obtain ⟨s', hs', rfl⟩ := execIngest_cases h
    exact (sameEnvironment_of_ingestByte hs').trans (sameEnvironment_respond _ _ _)
  | poll =>
    obtain ⟨s1, ev, s2, fired, hpoll, hflush, rfl⟩ := execPoll_cases h
    exact ((sameEnvironment_of_pollByte hpoll).trans (sameEnvironment_of_flushStep hflush)).trans
      (sameEnvironment_respond _ _ _)
  | hasframe =>
    obtain ⟨c, -, rfl⟩ := execHasframe_cases h
    exact sameEnvironment_respond _ _ _
  | ckvalid =>
    obtain ⟨v, -, rfl⟩ := execCkvalid_cases h
    exact sameEnvironment_respond _ _ _
  | take =>
    obtain ⟨-, rfl⟩ | ⟨-, -, rfl⟩ | ⟨-, -, m, rfl⟩ := execTake_cases h
    · exact sameEnvironment_respond _ _ _
    · exact ⟨rfl, rfl, rfl⟩
    · exact ⟨rfl, rfl, rfl⟩
  | stage src dst data =>
    obtain ⟨-, rfl⟩ | ⟨-, m, rfl⟩ := execStage_cases h
    · exact sameEnvironment_refuse _ _
    · exact ⟨rfl, rfl, rfl⟩
  | tryflush =>
    obtain ⟨s', fired, hflush, rfl⟩ := execTryflush_cases h
    exact (sameEnvironment_of_flushStep hflush).trans (sameEnvironment_respond _ _ _)
  | txpend =>
    cases h
    exact sameEnvironment_respond _ _ _
  | msrc => exact sameEnvironment_of_viewMessage h
  | mlen => exact sameEnvironment_of_viewMessage h
  | mdst => exact sameEnvironment_of_viewMessage h
  | mpay k => exact sameEnvironment_of_viewMessage h

/-- Settles O41: each kind of step keeps the parameters, and each but the clock's own keeps the clock. -/
theorem parametersAndClockAreInputs : Obligations.ParametersAndClockAreInputs := by
  intro s t h
  obtain ⟨-, rfl⟩ | ⟨w, rest, i, rest', -, -, hexec⟩ | ⟨w, rest, -, -, rfl⟩ | ⟨u, rest, hclock, rfl⟩ |
    ⟨b, rest, -, rfl⟩ | ⟨rest, -, rfl⟩ | ⟨rest, -, rfl⟩ := step_cases h
  · exact ⟨rfl, .inl rfl⟩
  · obtain ⟨hcfg, hnow, -⟩ := sameEnvironment_of_exec hexec
    exact ⟨hcfg, .inl hnow⟩
  · exact ⟨rfl, .inl rfl⟩
  · exact ⟨rfl, .inr ⟨u, rest, hclock⟩⟩
  · exact ⟨rfl, .inl rfl⟩
  · exact ⟨rfl, .inl rfl⟩
  · exact ⟨rfl, .inl rfl⟩

/-! ### `Elapsed` -/

/-- `Elapsed` over the integers (R7): what is added to `now` is `-t` up to a multiple of the range. -/
theorem elapsed_eq_sub_emod (c : Config) (now t : Nat) :
    (elapsed c now t : Int) = ((now : Int) - (t : Int)) % (c.timeRange : Int) := by
  have hle : t % c.timeRange ≤ c.timeRange := (Nat.mod_lt t (timeRange_pos c)).le
  have hdiv : (c.timeRange : Int) * (t / c.timeRange : Int) + (t % c.timeRange : Int) = t :=
    Int.mul_ediv_add_emod _ _
  have hsum : ((now + (c.timeRange - t % c.timeRange) : Nat) : Int) =
      ((now : Int) - t) + c.timeRange * ((t / c.timeRange : Int) + 1) := by
    rw [Nat.cast_add, Nat.cast_sub hle, Int.natCast_mod]
    linarith
  rw [elapsed, Int.natCast_mod, hsum, Int.add_mul_emod_self_left]

/-- An interval shorter than the range is measured exactly, across a wrap of the clock too (R129). -/
theorem elapsed_add_mod_self (c : Config) (t : Nat) {d : Nat} (hd : d < c.timeRange) :
    elapsed c ((t + d) % c.timeRange) t = d := by
  have hcast : (elapsed c (t + d) t : Int) = d := by
    rw [elapsed_eq_sub_emod, Nat.cast_add, add_sub_cancel_left]
    exact Int.emod_eq_of_lt d.cast_nonneg (Nat.cast_lt.2 hd)
  rw [elapsed_mod_now]
  exact Nat.cast_injective hcast

/-- Settles O48: the difference over the integers, and what it makes of an interval shorter than the range. -/
theorem elapsedIsModularDifference : Obligations.ElapsedIsModularDifference :=
  fun c now t _ => ⟨elapsed_eq_sub_emod c now t, elapsed_add_mod_self c t⟩

end Sys2Proof.Machine
end

section
/-! PROOFS. The state of the machine (10_state.md): the invariant of R26 at reset and under every step, the
checksum formula (R21), and which operations write `echo_rem` and `rx_ts` (R14, R15, R23, R27). -/

namespace Sys2Proof.Machine

/-! ### The operations that write the core's state -/

/-- Every operation that answers a next state writes the response port alone, or is one of the five whose own
inversion lemma says what it writes (R34, R100). -/
theorem exec_cases {i : Instr} {s t : State} (h : exec i s = .next t) :
    (∃ r, t = { s with response := r }) ∨
    (∃ b, i = .ingest b ∧ execIngest b s = .next t) ∨
    (i = .poll ∧ execPoll s = .next t) ∨
    (i = .take ∧ execTake s = .next t) ∨
    (∃ src dst data, i = .stage src dst data ∧ execStage src dst data s = .next t) ∨
    (i = .tryflush ∧ execTryflush s = .next t) := by
  have hview : ∀ {view : Except Fault Byte}, viewMessage view s = .next t →
      ∃ r, t = { s with response := r } := fun hv => by
    obtain ⟨-, rfl⟩ | ⟨-, v, -, rfl⟩ := viewMessage_cases hv
    · exact ⟨_, rfl⟩
    · exact ⟨_, rfl⟩
  cases i with
  | ingest b => exact .inr (.inl ⟨b, rfl, h⟩)
  | poll => exact .inr (.inr (.inl ⟨rfl, h⟩))
  | hasframe =>
    obtain ⟨c, -, rfl⟩ := execHasframe_cases h
    exact .inl ⟨_, rfl⟩
  | ckvalid =>
    obtain ⟨v, -, rfl⟩ := execCkvalid_cases h
    exact .inl ⟨_, rfl⟩
  | take => exact .inr (.inr (.inr (.inl ⟨rfl, h⟩)))
  | stage src dst data => exact .inr (.inr (.inr (.inr (.inl ⟨src, dst, data, rfl, h⟩))))
  | tryflush => exact .inr (.inr (.inr (.inr (.inr ⟨rfl, h⟩))))
  | txpend =>
    cases h
    exact .inl ⟨_, rfl⟩
  | msrc => exact .inl (hview h)
  | mlen => exact .inl (hview h)
  | mdst => exact .inl (hview h)
  | mpay k => exact .inl (hview h)

/-! ### The invariant at reset -/

/-- Nothing is accumulated, staged or held after reset, so each part of R26 is about no bytes (R115). -/
theorem Consistent.resetAt {c : Config} (h : c.legal) (now0 : Nat) : Consistent (State.resetAt c now0) where
  cfgLegal := h
  nowRange := Nat.mod_lt _ (timeRange_pos c)
  tsRange := Nat.mod_lt _ (timeRange_pos c)
  rxWf := ⟨.nil, by simp [State.resetAt]⟩
  txWf := ⟨.nil, by simp [State.resetAt]⟩
  msgWf := ⟨.nil, by simp [State.resetAt]⟩
  rxLenLe := Nat.zero_le _
  rxWritten := fun _ hk => absurd hk (Nat.not_lt_zero _)
  rxPendingValid := frameValid_of_holds (bs := []) h rfl (Nat.zero_le _) fun _ hk => absurd hk (Nat.not_lt_zero _)
  txLenRange := .inl rfl
  txPendingStaged := nofun
  echoLe := Nat.zero_le _
  txFrame := fun hlen => absurd hlen (Nat.not_lt_zero _)
  msgLenRange := rfl
  msgFrame := nofun

/-- Settles O3: the reset state is consistent for every legal parameter set, the defaults among them. -/
theorem resetIsConsistent : Obligations.ResetIsConsistent :=
  ⟨fun _ now0 hc => Consistent.resetAt hc now0, Consistent.resetAt (by decide) 0⟩

/-! ### The invariant under each step -/

theorem Consistent.withResponse {s : State} (h : Consistent s) (r : Option Response) :
    Consistent { s with response := r } :=
  h.withPorts s.qRx s.qTx r s.inputs

/-- POLL's byte step (R61): a discard only counts `echo_rem` down, anything else is the INGEST. -/
theorem Consistent.pollByte {s t : State} {ev : BitVec 8} (h : Consistent s)
    (ht : Machine.pollByte s = .ok (t, ev)) : Consistent t := by
  obtain ⟨-, rfl, -⟩ | ⟨b, rest, -, -, -, -, rfl⟩ | ⟨b, rest, -, -, -, hb⟩ := pollByte_cases ht
  · exact h
  · have hecho : s.echoRem - 1 ≤ s.cfg.txCap := (Nat.sub_le _ _).trans h.echoLe
    exact (h.withTx h.txWf h.txLenRange h.txPendingStaged hecho h.txFrame).withPorts rest s.qTx s.response s.inputs
  · exact (h.withPorts rest s.qTx s.response s.inputs).ingest hb

/-- TAKE (R64): what goes to the snapshot passed `Complete` and `XorOk`, so it is a validated frame. -/
theorem Consistent.take {s t : State} (h : Consistent s) (ht : execTake s = .next t) : Consistent t := by
  obtain ⟨-, rfl⟩ | ⟨-, -, rfl⟩ | ⟨hc, hx, -⟩ := execTake_cases ht
  · exact h.respond _ _
  · exact h.clear.respond _ _
  · obtain ⟨bs, hl, hb⟩ := h.rxBytes
    have hvalid : frameValid s = .ok true := by simp only [frameValid, hc, hx]
    rw [frameValid_of_holds h.cfgLegal hl h.rxLenLe hb] at hvalid
    have hrun : ValidRun bs := of_decide_eq_true (Except.ok.inj hvalid)
    obtain ⟨m, he, hget, hwf⟩ := exec_take_of_valid h.cfgLegal hl h.rxLenLe hb hrun
    obtain rfl := Host.Outcome.next.inj (he.symm.trans ht)
    have hcopy := h.withMsg (hwf h.msgWf) (hl ▸ h.rxLenLe) hrun fun k hk => (hget k).trans (if_pos hk)
    rw [hl] at hcopy
    exact hcopy.clear.respond _ _

/-- STAGE (R75): a frame that fits the buffer declares its own length and ends in its checksum. -/
theorem Consistent.stage {s t : State} {src dst : Byte} {data : List Byte} (h : Consistent s)
    (ht : execStage src dst data s = .next t) : Consistent t := by
  obtain ⟨-, rfl⟩ | ⟨hfit, -⟩ := execStage_cases ht
  · exact h.refuse _
  · obtain ⟨m, he, hget, hwf⟩ := exec_stage_of_fits src dst hfit
    obtain rfl := Host.Outcome.next.inj (he.symm.trans ht)
    obtain ⟨-, -, -, -, -, htxCap, -⟩ := h.cfgLegal
    have hbytes : ∀ k, k < (buildFrame src dst data).length → Memory.get m k = (buildFrame src dst data)[k]? :=
      fun k hk => (hget k).trans (if_pos (buildFrame_length src dst data ▸ hk))
    have hframe := h.withTx (m := m) (len := data.length + 4) (pend := true) (hwf h.txWf)
      (.inr ⟨by omega, hfit⟩) (fun _ => by omega) h.echoLe fun _ =>
        ⟨buildFrame src dst data, buildFrame_length src dst data, hbytes,
          buildFrame_lengthMatches src dst (by omega), buildFrame_xorAll src dst data⟩
    exact hframe.respond _ _

/-- Every operation keeps the invariant (R26). -/
theorem Consistent.exec {i : Instr} {s t : State} (h : Consistent s) (ht : Machine.exec i s = .next t) :
    Consistent t := by
  obtain ⟨r, rfl⟩ | ⟨b, -, hi⟩ | ⟨-, hp⟩ | ⟨-, htake⟩ | ⟨src, dst, data, -, hs⟩ | ⟨-, hf⟩ := exec_cases ht
  · exact h.withResponse r
  · obtain ⟨s', hs', rfl⟩ := execIngest_cases hi
    exact (h.ingest hs').respond _ _
  · obtain ⟨s1, ev, s2, fired, hpoll, hflush, rfl⟩ := execPoll_cases hp
    exact ((h.pollByte hpoll).flush hflush).respond _ _
  · exact h.take htake
  · exact h.stage hs
  · obtain ⟨s', fired, hflush, rfl⟩ := execTryflush_cases hf
    exact (h.flush hflush).respond _ _

/-- A reset in the middle of a run is the reset state beside the queues and inputs there are (R115, R116). -/
theorem Consistent.hardwareReset {s : State} (h : Consistent s) : Consistent (Machine.hardwareReset s) := by
  have hreset : Machine.hardwareReset s =
      { State.resetAt s.cfg s.now with qRx := s.qRx, qTx := s.qTx, response := none, inputs := s.inputs } := by
    simp [Machine.hardwareReset, State.resetAt, Nat.mod_eq_of_lt h.nowRange]
  rw [hreset]
  exact (Consistent.resetAt h.cfgLegal s.now).withPorts s.qRx s.qTx none s.inputs

/-- Settles O13: each kind of step keeps the invariant, the operations by `Consistent.exec`. -/
theorem stepKeepsConsistency : Obligations.StepKeepsConsistency := by
  intro s t h ht
  obtain ⟨-, rfl⟩ | ⟨w, rest, i, rest', -, -, hexec⟩ | ⟨w, rest, -, -, rfl⟩ | ⟨u, rest, -, rfl⟩ |
    ⟨b, rest, -, rfl⟩ | ⟨rest, -, rfl⟩ | ⟨rest, -, rfl⟩ := step_cases ht
  · exact h
  · exact (h.withInputs rest').exec hexec
  · exact (h.withInputs rest).refuse _
  · exact (h.withInputs rest).clockTo u
  · exact h.withPorts (s.qRx ++ [b]) s.qTx s.response rest
  · exact h.withPorts s.qRx s.qTx.tail s.response rest
  · exact (h.withInputs rest).hardwareReset

/-! ### The checksum formula (R21) -/

/-- A run of bytes is its body and its last byte, and the XOR of both is 0 when they are equal (R47). -/
theorem xorAll_take_eq_getElem_iff {bs : List Byte} {n : Nat} (hn : bs.length = n + 1) :
    some (xorAll (bs.take n)) = bs[n]? ↔ xorAll bs = 0 := by
  have hlt : n < bs.length := by omega
  have hsplit : bs.take n ++ [bs[n]] = bs := by
    rw [List.take_append_getElem hlt, ← hn, List.take_length]
  calc some (xorAll (bs.take n)) = bs[n]?
      ↔ xorAll (bs.take n) = bs[n] := by rw [List.getElem?_eq_getElem hlt, Option.some.injEq]
    _ ↔ xorAll (bs.take n) ^^^ bs[n] = 0 := (xor_eq_zero_iff _ _).symm
    _ ↔ xorAll (bs.take n ++ [bs[n]]) = 0 := by rw [xorAll_append, xorAll_singleton]
    _ ↔ xorAll bs = 0 := by rw [hsplit]

/-- Settles O27: the checksum of a complete frame is its last byte. -/
theorem checksumFormulasAgree : Obligations.ChecksumFormulasAgree := by
  intro bs len hcomplete hlen
  obtain ⟨v, hv, hlength⟩ := hcomplete.last
  obtain rfl : v = len := Option.some.inj (hv.symm.trans hlen)
  exact xorAll_take_eq_getElem_iff hlength

/-! ### The frame of INGEST and TAKE (R27) -/

/-- Everything but the receive registers, the snapshot and the response is as it was: the frame INGEST and TAKE share. -/
structure SparesTransmitSide (s t : State) : Prop extends SameEnvironment s t where
  echoRem : t.echoRem = s.echoRem
  txBuf : t.txBuf = s.txBuf
  txLen : t.txLen = s.txLen
  txPending : t.txPending = s.txPending
  qRx : t.qRx = s.qRx
  qTx : t.qTx = s.qTx

theorem execIngest_frame {b : Byte} {s t : State} (h : execIngest b s = .next t) :
    SparesTransmitSide s t ∧ t.msgBuf = s.msgBuf ∧ t.msgLen = s.msgLen ∧ t.msgValid = s.msgValid := by
  obtain ⟨s', hs', rfl⟩ := execIngest_cases h
  obtain ⟨m, n, pend, rfl, -⟩ := ingestByte_cases hs'
  exact ⟨⟨⟨rfl, rfl, rfl⟩, rfl, rfl, rfl, rfl, rfl, rfl⟩, rfl, rfl, rfl⟩

theorem execTake_frame {s t : State} (h : execTake s = .next t) : SparesTransmitSide s t ∧ t.rxBuf = s.rxBuf := by
  obtain ⟨-, rfl⟩ | ⟨-, -, rfl⟩ | ⟨-, -, m, rfl⟩ := execTake_cases h
  · exact ⟨⟨⟨rfl, rfl, rfl⟩, rfl, rfl, rfl, rfl, rfl, rfl⟩, rfl⟩
  · exact ⟨⟨⟨rfl, rfl, rfl⟩, rfl, rfl, rfl, rfl, rfl, rfl⟩, rfl⟩
  · exact ⟨⟨⟨rfl, rfl, rfl⟩, rfl, rfl, rfl, rfl, rfl, rfl⟩, rfl⟩

/-- Settles O42: the two frames, read byte by byte. -/
theorem receiveOpsSpareTransmitSide : Obligations.ReceiveOpsSpareTransmitSide := by
  intro i b s t hi h
  obtain rfl | rfl := hi
  · obtain ⟨f, hbuf, hlen, hvalid⟩ := execIngest_frame h
    exact ⟨f.echoRem, State.byteAt_congr f.txBuf, f.txLen, f.txPending, f.qRx, f.qTx, f.now, f.inputs, f.cfg,
      fun _ => ⟨State.byteAt_congr (sp := .msgBuf) hbuf, hlen, hvalid⟩, nofun⟩
  · obtain ⟨f, hbuf⟩ := execTake_frame h
    exact ⟨f.echoRem, State.byteAt_congr f.txBuf, f.txLen, f.txPending, f.qRx, f.qTx, f.now, f.inputs, f.cfg,
      nofun, fun _ => State.byteAt_congr (sp := .rxBuf) hbuf⟩

/-! ### Who writes `echo_rem` (R15) -/

/-- One byte of `Q_rx` is discarded as echo, nothing being pending (R61). -/
abbrev EchoDropped (s t : State) : Prop :=
  t.echoRem + 1 = s.echoRem ∧ s.txPending = false ∧ s.qRx ≠ [] ∧ t.qRx = s.qRx.tail ∧ t.rxLen = s.rxLen ∧
    t.rxTs = s.rxTs

/-- The pending frame is flushed, and its bytes are expected back as echo (R76). -/
abbrev Flushed (s t : State) : Prop := t.echoRem = s.txLen ∧ s.txPending = true ∧ t.txPending = false

theorem flushed_of_flushStep {s t : State} {tLast : Nat} {fired : Bool} (h : flushStep tLast s = .ok (t, fired)) :
    t = s ∨ Flushed s t := by
  obtain ⟨-, rfl, -⟩ | ⟨-, hpend, -, bs, -, rfl⟩ := flushStep_cases h
  · exact .inl rfl
  · exact .inr ⟨rfl, hpend, rfl⟩

/-- POLL's byte step discards an echo byte or leaves the transmit side alone (R61). -/
theorem echoDropped_of_pollByte {s t : State} {ev : BitVec 8} (h : pollByte s = .ok (t, ev)) :
    (t.txPending = s.txPending ∧ EchoDropped s t) ∨
      (t.echoRem = s.echoRem ∧ t.txLen = s.txLen ∧ t.txPending = s.txPending) := by
  obtain ⟨-, rfl, -⟩ | ⟨b, rest, hq, hecho, hidle, -, rfl⟩ | ⟨b, rest, -, -, -, hb⟩ := pollByte_cases h
  · exact .inr ⟨rfl, rfl, rfl⟩
  · exact .inl ⟨rfl, Nat.sub_add_cancel hecho, hidle, by simp [hq], by simp [hq], rfl, rfl⟩
  · obtain ⟨m, n, pend, rfl, -⟩ := ingestByte_cases hb
    exact .inr ⟨rfl, rfl, rfl⟩

/-- POLL counts `echo_rem` down, after which nothing pends and no flush fires, or sets it by the flush (R61). -/
theorem echoRem_of_execPoll {s t : State} (h : execPoll s = .next t) :
    t.echoRem = s.echoRem ∨ EchoDropped s t ∨ Flushed s t := by
  obtain ⟨s1, ev, s2, fired, hpoll, hflush, rfl⟩ := execPoll_cases h
  obtain ⟨hpend1, hdrop⟩ | ⟨hecho, hlen, hpend1⟩ := echoDropped_of_pollByte hpoll
  · obtain rfl | ⟨-, hpend, -⟩ := flushed_of_flushStep hflush
    · exact .inr (.inl hdrop)
    · obtain ⟨-, hidle, -⟩ := hdrop
      exact absurd (hidle.symm.trans (hpend1.symm.trans hpend)) Bool.false_ne_true
  · obtain rfl | ⟨hset, hpend, hpend2⟩ := flushed_of_flushStep hflush
    · exact .inl hecho
    · exact .inr (.inr ⟨hset.trans hlen, hpend1.symm.trans hpend, hpend2⟩)

/-- Of the operations only POLL and TRYFLUSH write `echo_rem` (R15). -/
theorem echoRem_of_exec {i : Instr} {s t : State} (h : exec i s = .next t) :
    t.echoRem = s.echoRem ∨ (i = .poll ∧ EchoDropped s t) ∨ ((i = .poll ∨ i = .tryflush) ∧ Flushed s t) := by
  obtain ⟨r, rfl⟩ | ⟨b, -, hi⟩ | ⟨hpoll, hp⟩ | ⟨-, ht⟩ | ⟨src, dst, data, -, hs⟩ | ⟨htry, hf⟩ := exec_cases h
  · exact .inl rfl
  · exact .inl (execIngest_frame hi).1.echoRem
  · obtain hsame | hdrop | hset := echoRem_of_execPoll hp
    · exact .inl hsame
    · exact .inr (.inl ⟨hpoll, hdrop⟩)
    · exact .inr (.inr ⟨.inl hpoll, hset⟩)
  · exact .inl (execTake_frame ht).1.echoRem
  · obtain ⟨-, rfl⟩ | ⟨-, m, rfl⟩ := execStage_cases hs
    · exact .inl rfl
    · exact .inl rfl
  · obtain ⟨s', fired, hflush, rfl⟩ := execTryflush_cases hf
    obtain rfl | hset := flushed_of_flushStep hflush
    · exact .inl rfl
    · exact .inr (.inr ⟨.inr htry, hset⟩)

/-- Settles O39: a request writes `echo_rem` as `echoRem_of_exec` says, of the other steps only reset does. -/
theorem echoCounterChanges : Obligations.EchoCounterChanges := by
  intro s t h
  obtain ⟨-, rfl⟩ | ⟨w, rest, i, rest', hin, hfetch, hexec⟩ | ⟨w, rest, -, -, rfl⟩ | ⟨u, rest, -, rfl⟩ |
    ⟨b, rest, -, rfl⟩ | ⟨rest, -, rfl⟩ | ⟨rest, hin, rfl⟩ := step_cases h
  · exact .inl rfl
  · have hop : opField w = i.opcode := opField_of_fetch hfetch
    obtain hsame | ⟨rfl, hecho, hidle, hq, hq', hlen, hts⟩ | ⟨hi, hset, hpend, hpend'⟩ := echoRem_of_exec hexec
    · exact .inl hsame
    · exact .inr (.inl ⟨hecho, hidle, hq, hq', hlen, hts, w, rest, hin, hop⟩)
    · have hcode : opField w = 0x2 ∨ opField w = 0x7 := by
        obtain rfl | rfl := hi
        · exact .inl hop
        · exact .inr hop
      exact .inr (.inr (.inl ⟨hset, hpend, hpend', w, rest, hin, hcode⟩))
  · exact .inl rfl
  · exact .inl rfl
  · exact .inl rfl
  · exact .inl rfl
  · exact .inr (.inr (.inr ⟨rfl, rest, hin⟩))

/-! ### Who writes `rx_ts` (R14, R23) -/

theorem rxTs_of_ingestByte {b : Byte} {s t : State} (h : ingestByte b s = .ok t) : t.rxTs = s.now := by
  obtain ⟨m, n, pend, rfl, -⟩ := ingestByte_cases h
  rfl

theorem rxTs_of_pollByte {s t : State} {ev : BitVec 8} (h : pollByte s = .ok (t, ev)) :
    t.rxTs = s.rxTs ∨ t.rxTs = s.now := by
  obtain ⟨-, rfl, -⟩ | ⟨b, rest, -, -, -, -, rfl⟩ | ⟨b, rest, -, -, -, hb⟩ := pollByte_cases h
  · exact .inl rfl
  · exact .inl rfl
  · have hts := rxTs_of_ingestByte hb
    exact .inr hts

theorem rxTs_of_flushStep {s t : State} {tLast : Nat} {fired : Bool} (h : flushStep tLast s = .ok (t, fired)) :
    t.rxTs = s.rxTs := by
  obtain ⟨q, p, e, rfl⟩ := flushStep_frame h
  rfl

/-- `rx_ts` under every operation: left alone, or stamped with the clock (R14). -/
theorem rxTs_of_exec {i : Instr} {s t : State} (h : exec i s = .next t) : t.rxTs = s.rxTs ∨ t.rxTs = s.now := by
  obtain ⟨r, rfl⟩ | ⟨b, -, hi⟩ | ⟨-, hp⟩ | ⟨-, ht⟩ | ⟨src, dst, data, -, hs⟩ | ⟨-, hf⟩ := exec_cases h
  · exact .inl rfl
  · obtain ⟨s', hs', rfl⟩ := execIngest_cases hi
    have hts := rxTs_of_ingestByte hs'
    exact .inr hts
  · obtain ⟨s1, ev, s2, fired, hpoll, hflush, rfl⟩ := execPoll_cases hp
    rw [respond_rxTs, rxTs_of_flushStep hflush]
    exact rxTs_of_pollByte hpoll
  · obtain ⟨-, rfl⟩ | ⟨-, -, rfl⟩ | ⟨-, -, m, rfl⟩ := execTake_cases ht
    · exact .inl rfl
    · exact .inr rfl
    · exact .inr rfl
  · obtain ⟨-, rfl⟩ | ⟨-, m, rfl⟩ := execStage_cases hs
    · exact .inl rfl
    · exact .inl rfl
  · obtain ⟨s', fired, hflush, rfl⟩ := execTryflush_cases hf
    have hts := rxTs_of_flushStep hflush
    exact .inl hts

/-- Settles O40: a reset, too, stamps the clock's value, which has `TSW` bits in a consistent state. -/
theorem timestampOnlyTakesNow : Obligations.TimestampOnlyTakesNow := by
  intro s t hs h
  obtain ⟨-, rfl⟩ | ⟨w, rest, i, rest', -, -, hexec⟩ | ⟨w, rest, -, -, rfl⟩ | ⟨u, rest, -, rfl⟩ |
    ⟨b, rest, -, rfl⟩ | ⟨rest, -, rfl⟩ | ⟨rest, -, rfl⟩ := step_cases h
  · exact .inl rfl
  · have hts := rxTs_of_exec hexec
    exact hts
  · exact .inl rfl
  · exact .inl rfl
  · exact .inl rfl
  · exact .inl rfl
  · exact .inr (Nat.mod_eq_of_lt hs.nowRange)

end Sys2Proof.Machine
end

section
/-! PROOFS. Memory and transport (20_memory.md): a step of the transport and of the clock (R7, R37, R38), the pure
queries (R34), and a burst of bytes stored in order (R31, R57). -/

namespace Sys2Proof.Machine

/-! ### The transport and the clock -/

theorem step_of_receive {s : State} {b : Byte} {rest : List Input} (h : s.inputs = .receive b :: rest) :
    step s = .next (transportReceive b { s with inputs := rest }) := by
  simp only [step, h]

theorem step_of_send {s : State} {rest : List Input} (h : s.inputs = .send :: rest) :
    step s = .next (transportSend { s with inputs := rest }) := by
  simp only [step, h]

theorem step_of_clock {s : State} {t : Nat} {rest : List Input} (h : s.inputs = .clock t :: rest) :
    step s = .next (clockTo t { s with inputs := rest }) := by
  simp only [step, h]

theorem step_of_no_input {s : State} (h : s.inputs = []) : step s = .next s := by
  simp only [step, h, idleStep]

/-- Settles O8: the step of each agent, with the head of `Q_tx` or the cut of the clock reading worked out. -/
theorem transportAndClockSteps : Obligations.TransportAndClockSteps := by
  refine ⟨fun s b rest h => step_of_receive h, fun s b q rest h hq => ?_, fun s rest h hq => ?_,
    fun s t rest h ht => ?_, fun s t rest h => step_of_clock h, fun s h => step_of_no_input h⟩
  · rw [step_of_send h, transportSend, hq, List.tail_cons]
  · rw [step_of_send h, transportSend, hq, List.tail_nil]
  · rw [step_of_clock h, clockTo, Nat.mod_eq_of_lt ht]

/-! ### The pure queries -/

/-- The pure queries of R34. -/
abbrev PureQuery (k : Byte) (i : Instr) : Prop :=
  i = .hasframe ∨ i = .ckvalid ∨ i = .txpend ∨ i = .msrc ∨ i = .mlen ∨ i = .mdst ∨ i = .mpay k

/-- A query writes the response port alone: none of them is one of the five operations that write more. -/
theorem PureQuery.exec_frame {k : Byte} {i : Instr} {s t : State} (hi : PureQuery k i) (h : exec i s = .next t) :
    ∃ r, t = { s with response := r } := by
  obtain hr | ⟨b, rfl, -⟩ | ⟨rfl, -⟩ | ⟨rfl, -⟩ | ⟨src, dst, data, rfl, -⟩ | ⟨rfl, -⟩ := exec_cases h
  · exact hr
  all_goals exact absurd hi (by simp)

/-- A query does not read the response port, and what it answers replaces what stood there. -/
theorem PureQuery.exec_withResponse {k : Byte} {i : Instr} (hi : PureQuery k i) (s : State)
    (r : Option Response) : exec i { s with response := r } = exec i s := by
  obtain rfl | rfl | rfl | rfl | rfl | rfl | rfl := hi
  case inr.inl =>
    have hvalid : frameValid { s with response := r } = frameValid s := frameValid_of_eq rfl rfl rfl
    simp only [exec, execCkvalid, hvalid]
    rfl
  all_goals rfl

/-- Settles O44: a query writes the response port, which no query reads. -/
theorem queriesChangeNothing : Obligations.QueriesChangeNothing := by
  intro i k s t hi h
  obtain ⟨r, rfl⟩ := PureQuery.exec_frame hi h
  exact ⟨rfl, (PureQuery.exec_withResponse hi s r).trans h⟩

/-! ### A burst of bytes -/

theorem SameButRx.trans {s t u : State} (hst : SameButRx s t) (htu : SameButRx t u) : SameButRx s u := by
  obtain ⟨hecho, htx, htxLen, hpend, hmsg, hmsgLen, hvalid, hqRx, hqTx, hnow, hinputs, hcfg⟩ := hst
  obtain ⟨hecho', htx', htxLen', hpend', hmsg', hmsgLen', hvalid', hqRx', hqTx', hnow', hinputs', hcfg'⟩ := htu
  exact ⟨hecho'.trans hecho, fun k => (htx' k).trans (htx k), htxLen'.trans htxLen, hpend'.trans hpend,
    fun k => (hmsg' k).trans (hmsg k), hmsgLen'.trans hmsgLen, hvalid'.trans hvalid, hqRx'.trans hqRx,
    hqTx'.trans hqTx, hnow'.trans hnow, hinputs'.trans hinputs, hcfg'.trans hcfg⟩

theorem SameButRx.now {s t : State} (h : SameButRx s t) : t.now = s.now := by
  obtain ⟨-, -, -, -, -, -, -, -, -, hnow, -, -⟩ := h
  exact hnow

theorem SameButRx.cfg {s t : State} (h : SameButRx s t) : t.cfg = s.cfg := by
  obtain ⟨-, -, -, -, -, -, -, -, -, -, -, hcfg⟩ := h
  exact hcfg

/-- What INGEST at `s.now` leaves behind: `t` holds the run `run` and is `s` in everything but the receive
registers and the response (R60). -/
structure StoredRun (run : List Byte) (s t : State) : Prop where
  consistent : Consistent t
  rxLen : t.rxLen = run.length
  holds : Holds .rxBuf run t
  rxTs : t.rxTs = s.now
  rxPending : t.rxPending = true ↔ ValidRun run
  frame : SameButRx s t

/-- One INGEST stores the run it started from and the byte. -/
theorem storedRun_of_ingest {s : State} {bs : List Byte} (b : Byte) (h : Consistent s) (hl : bs.length = s.rxLen)
    (hb : Holds .rxBuf bs s) :
    ∃ t, exec (.ingest b) s = .next t ∧ StoredRun (runBefore s bs ++ [b]) s t := by
  obtain ⟨m, he, -, hrun, -⟩ := exec_ingest_of_holds b h.cfgLegal hl h.rxLenLe hb
  exact ⟨_, he, {
    consistent := h.exec he
    rxLen := by simp
    holds := hrun
    rxTs := rfl
    rxPending := decide_eq_true_iff
    frame := ⟨rfl, fun _ => rfl, rfl, rfl, fun _ => rfl, rfl, rfl, rfl, rfl, rfl, rfl, rfl⟩ }⟩

/-- A run stored at this very moment, with room for one more byte, is not stale. -/
theorem StoredRun.runBefore_eq {s t : State} {run : List Byte} (h : StoredRun run s t) (hgap : 0 < t.cfg.tGap)
    (hroom : run.length < 255) : runBefore t run = run := by
  have helapsed : elapsed t.cfg t.now t.rxTs = 0 := by rw [h.rxTs, h.frame.now, elapsed_self]
  have hlen : t.rxLen = run.length := h.rxLen
  exact runBefore_of_fresh h.consistent.cfgLegal (by omega)

/-- The bytes of a burst that follow a run stored at the same moment go behind it, in order. -/
theorem storedRun_of_ingestAll {s : State} (hgap : 0 < s.cfg.tGap) (more : List Byte) :
    ∀ {run : List Byte} {t : State}, StoredRun run s t → run.length + more.length ≤ 255 →
      ∃ u, ingestAll more t = .next u ∧ StoredRun (run ++ more) s u := by
  induction more with
  | nil =>
    intro run t h _
    exact ⟨t, rfl, (List.append_nil run).symm ▸ h⟩
  | cons b more ih =>
    intro run t h hroom
    rw [List.length_cons] at hroom
    obtain ⟨t', he, h'⟩ := storedRun_of_ingest b h.consistent h.rxLen.symm h.holds
    rw [h.runBefore_eq (h.frame.cfg ▸ hgap) (by omega)] at h'
    have hstored : StoredRun (run ++ [b]) s t' :=
      { h' with rxTs := h'.rxTs.trans h.frame.now, frame := h.frame.trans h'.frame }
    obtain ⟨u, hu, hall⟩ := ih hstored (by rw [List.length_append, List.length_singleton]; omega)
    rw [List.append_assoc, List.singleton_append] at hall
    exact ⟨u, by simp only [ingestAll, he, hu], hall⟩

/-- A whole burst into an empty buffer is stored: its first byte starts a run, whether or not a gap has expired. -/
theorem storedRun_of_burst {s : State} {bs : List Byte} (h : Consistent s) (hempty : s.rxLen = 0)
    (hgap : 0 < s.cfg.tGap) (hne : bs ≠ []) (hroom : bs.length ≤ 255) :
    ∃ t, ingestAll bs s = .next t ∧ StoredRun bs s t := by
  obtain ⟨b, more, rfl⟩ := List.exists_cons_of_ne_nil hne
  obtain ⟨t, he, ht⟩ := storedRun_of_ingest (bs := []) b h hempty.symm fun _ hk => absurd hk (Nat.not_lt_zero _)
  rw [show runBefore s [] = [] from ite_self _, List.nil_append] at ht
  obtain ⟨u, hu, hall⟩ := storedRun_of_ingestAll hgap more ht (by rw [List.length_singleton, Nat.add_comm]; exact hroom)
  exact ⟨u, by simp only [ingestAll, he, hu], hall⟩

/-- Settles O18: what `storedRun_of_burst` says of the state after the burst. -/
theorem burstIsStoredInOrder : Obligations.BurstIsStoredInOrder := by
  intro s bs h hempty hgap hpos hroom
  obtain ⟨t, ht, hstored⟩ := storedRun_of_burst h hempty hgap (List.ne_nil_of_length_pos hpos) hroom
  exact ⟨t, ht, hstored.consistent, hstored.rxLen, hstored.holds, hstored.rxTs, hstored.rxPending, hstored.frame⟩

end Sys2Proof.Machine
end

section
/-! PROOFS. Encoding (30_encoding.md), the decoder: one equation that splits off STAGE, the only operation with data
bytes, and what follows from it (R49 to R53). -/

namespace Sys2Proof

/-! ### The decoder, said once -/

/-- The operation of a code other than STAGE's: only field `a` can be an operand of it (R49, R50). -/
def operationWithoutData (op : BitVec 4) (a : Byte) : Option Instr :=
  match op.toNat with
  | 0x1 => some (.ingest a)
  | 0x2 => some .poll
  | 0x3 => some .hasframe
  | 0x4 => some .ckvalid
  | 0x5 => some .take
  | 0x7 => some .tryflush
  | 0x8 => some .txpend
  | 0x9 => some .msrc
  | 0xA => some .mlen
  | 0xB => some .mdst
  | 0xC => some (.mpay a)
  | _ => none

/-- The decoder is STAGE's decoder for code 6 and leaves the data bytes alone for every other code. -/
theorem decode_eq (w : CmdWord) (ds : List Byte) :
    decode w ds = if opField w = 0x6 then decodeStage w ds else
      ((operationWithoutData (opField w) (aField w)).map (·, ds)).elim (.error .badOp) .ok := by
  unfold decode operationWithoutData
  simp only [← BitVec.toNat_inj]
  match (opField w).toNat with
  | 0 | 1 | 2 | 3 | 4 | 5 | 6 | 7 | 8 | 9 | 10 | 11 | 12 => rfl
  | n + 13 => rfl

theorem decode_of_stage {w : CmdWord} (h : opField w = 0x6) (ds : List Byte) : decode w ds = decodeStage w ds := by
  rw [decode_eq, if_pos h]

theorem decode_of_operation {w : CmdWord} {i : Instr} (ds : List Byte)
    (h : operationWithoutData (opField w) (aField w) = some i) : decode w ds = .ok (i, ds) := by
  have h6 : opField w ≠ 0x6 := fun h6 => by rw [h6] at h; cases h
  rw [decode_eq, if_neg h6, h]
  rfl

theorem decode_of_reserved {w : CmdWord} (ds : List Byte) (h6 : opField w ≠ 0x6)
    (h : operationWithoutData (opField w) (aField w) = none) : decode w ds = .error .badOp := by
  rw [decode_eq, if_neg h6, h]
  rfl

theorem decodeStage_eq_ok_iff {w : CmdWord} {ds left : List Byte} {i : Instr} :
    decodeStage w ds = .ok (i, left) ↔
      ∃ data, data.length = (nField w).toNat ∧ i = .stage (aField w) (bField w) data ∧ ds = data ++ left := by
  unfold decodeStage
  constructor
  · intro h
    split at h
    · next hle =>
      cases h
      exact ⟨ds.take (nField w).toNat, List.length_take_of_le hle, rfl, (List.take_append_drop _ ds).symm⟩
    · cases h
  · rintro ⟨data, hlen, rfl, rfl⟩
    rw [← hlen, if_pos (by simp), List.take_left, List.drop_left]

/-- All a decoding that succeeds can be: the first `n` data bytes as STAGE's payload, or an operation that has none. -/
theorem decode_cases {w : CmdWord} {ds left : List Byte} {i : Instr} (h : decode w ds = .ok (i, left)) :
    (opField w = 0x6 ∧ decodeStage w ds = .ok (i, left)) ∨
      (operationWithoutData (opField w) (aField w) = some i ∧ ds = left) := by
  by_cases h6 : opField w = 0x6
  · exact .inl ⟨h6, decode_of_stage h6 ds ▸ h⟩
  · cases hop : operationWithoutData (opField w) (aField w) with
    | none =>
      rw [decode_of_reserved ds h6 hop] at h
      cases h
    | some j =>
      rw [decode_of_operation ds hop] at h
      cases h
      exact .inr ⟨rfl, rfl⟩

theorem operationWithoutData_eq_some {op : Nat} {a : Byte} {i : Instr} (h : operationWithoutData op a = some i) :
    op = i.opcode ∧ i.wellFormed = true ∧ i.dataBytes = [] := by
  unfold operationWithoutData at h
  split at h
  case h_12 => cases h
  all_goals
    next hop =>
    cases h
    exact ⟨BitVec.eq_of_toNat_eq hop, rfl, rfl⟩

/-- Every assigned code but STAGE's selects an operation (R50). -/
theorem exists_operationWithoutData {op : BitVec 4} (a : Byte) (h1 : 1 ≤ op.toNat) (h12 : op.toNat ≤ 12)
    (h6 : op ≠ 0x6) : ∃ i, operationWithoutData op a = some i := by
  have hne : op.toNat ≠ 6 := mt (BitVec.eq_of_toNat_eq (y := 0x6)) h6
  unfold operationWithoutData
  generalize op.toNat = n at h1 h12 hne
  match n with
  | 1 | 2 | 3 | 4 | 5 | 7 | 8 | 9 | 10 | 11 | 12 => exact ⟨_, rfl⟩
  | 6 => exact absurd rfl hne
  | 0 | _ + 13 => omega

/-! ### Decoding what is encoded -/

/-- The word of an operation without data bytes gives that operation back (R49). -/
theorem operationWithoutData_encodeWord {i : Instr} (h : i.opcode ≠ 0x6) :
    operationWithoutData (opField (encodeWord i)) (aField (encodeWord i)) = some i := by
  cases i with
  | stage src dst data => exact absurd rfl h
  | ingest b => rw [encodeWord, opField_packWord, aField_packWord]; rfl
  | mpay k => rw [encodeWord, opField_packWord, aField_packWord]; rfl
  | _ => rfl

/-- STAGE's count field holds every well-formed length, so its payload comes back whole (R53). -/
theorem decode_encode_stage (src dst : Byte) {data : List Byte} (more : List Byte) (h : data.length ≤ 255) :
    decode (encodeWord (.stage src dst data)) (data ++ more) = .ok (.stage src dst data, more) := by
  have hcount : (BitVec.ofNat 8 data.length).toNat = data.length := by
    rw [BitVec.toNat_ofNat, Nat.mod_eq_of_lt (by omega)]
  rw [encodeWord, decode_of_stage (opField_packWord _ _ _ _), decodeStage_eq_ok_iff]
  exact ⟨data, by rw [nField_packWord, hcount], by rw [aField_packWord, bField_packWord], rfl⟩

/-- Settles O10: STAGE by its count field, every other operation by its code and field `a`. -/
theorem decodeEncodeAgree : Obligations.DecodeEncodeAgree := by
  intro i more hwf
  by_cases h6 : i.opcode = 0x6
  · cases i with
    | stage src dst data => exact decode_encode_stage src dst more (of_decide_eq_true hwf)
    | _ => exact absurd h6 nofun
  · have hop := operationWithoutData_encodeWord h6
    obtain ⟨-, -, hdata⟩ := operationWithoutData_eq_some hop
    rw [encode, hdata, List.nil_append]
    exact decode_of_operation more hop

/-- Settles O9: the words are fixed, so the decoder is run on each. -/
theorem wordsOfTheSpecDecode : Obligations.WordsOfTheSpecDecode := by
  unfold Obligations.WordsOfTheSpecDecode
  decide

/-! ### What decoding depends on and what it answers -/

/-- Only INGEST and MPAY among the operations without data bytes use field `a` (R49). -/
theorem operationWithoutData_congr {op : BitVec 4} {a a' : Byte} (h : op = 0x1 ∨ op = 0xC → a = a') :
    operationWithoutData op a = operationWithoutData op a' := by
  unfold operationWithoutData
  split
  case h_1 hop => rw [h (.inl (BitVec.eq_of_toNat_eq hop))]
  case h_11 hop => rw [h (.inr (BitVec.eq_of_toNat_eq hop))]
  all_goals rfl

/-- Settles O11: both words take the same branch of the decoder, which reads only fields they share. -/
theorem ignoredFieldsDoNotMatter : Obligations.IgnoredFieldsDoNotMatter := by
  intro w w' ds hop ha hbn
  rw [decode_eq, decode_eq, ← hop]
  by_cases h6 : opField w = 0x6
  · obtain ⟨hb, hn⟩ := hbn h6
    rw [if_pos h6, if_pos h6, decodeStage, decodeStage, ha (.inr (.inl h6)), hb, hn]
  · have hsame := operationWithoutData_congr (op := opField w) (a := aField w) (a' := aField w') fun h =>
      ha (h.imp_right .inr)
    rw [if_neg h6, if_neg h6, hsame]

/-- What is decoded carries its word's code, is well formed, and took exactly its data bytes (R50, R53). -/
theorem decode_spec {w : CmdWord} {ds left : List Byte} {i : Instr} (h : decode w ds = .ok (i, left)) :
    opField w = i.opcode ∧ i.wellFormed = true ∧ ds = i.dataBytes ++ left := by
  obtain ⟨h6, hstage⟩ | ⟨hop, rfl⟩ := decode_cases h
  · obtain ⟨data, hlen, rfl, rfl⟩ := decodeStage_eq_ok_iff.1 hstage
    have hcount : data.length ≤ 255 := by omega
    exact ⟨h6, decide_eq_true hcount, rfl⟩
  · obtain ⟨hcode, hwf, hdata⟩ := operationWithoutData_eq_some hop
    exact ⟨hcode, hwf, by rw [hdata, List.nil_append]⟩

theorem decodeStage_eq_error_iff {w : CmdWord} {ds : List Byte} {r : Reject} :
    decodeStage w ds = .error r ↔ r = .incomplete ∧ ds.length < (nField w).toNat := by
  unfold decodeStage
  split
  · next hle => exact ⟨nofun, fun ⟨_, hlt⟩ => absurd hle (Nat.not_le.2 hlt)⟩
  · next hle => exact ⟨fun h => by cases h; exact ⟨rfl, Nat.lt_of_not_le hle⟩, fun ⟨hr, _⟩ => hr ▸ rfl⟩

/-- A request is incomplete exactly when it is a STAGE with too few data bytes (R53; log 4). -/
theorem decode_eq_incomplete_iff {w : CmdWord} {ds : List Byte} :
    decode w ds = .error .incomplete ↔ opField w = 0x6 ∧ ds.length < (nField w).toNat := by
  by_cases h6 : opField w = 0x6
  · rw [decode_of_stage h6, decodeStage_eq_error_iff]
    exact ⟨fun ⟨_, hlt⟩ => ⟨h6, hlt⟩, fun ⟨_, hlt⟩ => ⟨rfl, hlt⟩⟩
  · refine ⟨fun h => ?_, fun ⟨h, _⟩ => absurd h h6⟩
    cases hop : operationWithoutData (opField w) (aField w) with
    | none => rw [decode_of_reserved ds h6 hop] at h; cases h
    | some i => rw [decode_of_operation ds hop] at h; cases h

theorem dataCount_of_stage {w : CmdWord} (h : opField w = 0x6) : dataCount w = (nField w).toNat := by
  rw [dataCount, h]
  rfl

/-- Settles O12: what a decoding answers by `decode_spec`; that there is one, by the branch the code takes. -/
theorem decodeFollowsMatchAndMask : Obligations.DecodeFollowsMatchAndMask := by
  refine ⟨fun w ds i left h => ?_, fun w ds h1 h12 hcount => ?_⟩
  · obtain ⟨hop, hwf, hdata⟩ := decode_spec h
    exact ⟨by rw [and_mask_eq, hop], hwf, hdata⟩
  · by_cases h6 : opField w = 0x6
    · rw [dataCount_of_stage h6] at hcount
      exact ⟨_, _, by rw [decode_of_stage h6, decodeStage, if_pos hcount]⟩
    · obtain ⟨i, hop⟩ := exists_operationWithoutData (aField w) h1 h12 h6
      exact ⟨i, ds, decode_of_operation ds hop⟩

end Sys2Proof
end

section
/-! PROOFS. Encoding (30_encoding.md), requests as steps: what a step makes of the request at the head of the inputs,
and that it stops only where there is none (R48, R52, R53, R95). -/

namespace Sys2Proof.Machine

/-! ### The request at the head of the inputs -/

/-- A request takes exactly its own data bytes from the port (R53). -/
theorem fetchRequest_of_decode {w : CmdWord} {ds : List Byte} {i : Instr} (rest : List Input)
    (h : decode w ds = .ok (i, [])) : fetchRequest w (ds.map .data ++ rest) = .ok (i, rest) := by
  have hport := decode_append (dataRun rest) h
  simp only [fetchRequest, dataRun_append, afterData_append, hport, List.nil_append, dataRun_afterData]

theorem fetchRequest_of_error {w : CmdWord} {rest : List Input} {r : Reject} (h : decode w (dataRun rest) = .error r) :
    fetchRequest w rest = .error r := by
  simp only [fetchRequest, h]

theorem step_of_fetch {s : State} {w : CmdWord} {rest rest' : List Input} {i : Instr} (hin : s.inputs = .cmd w :: rest)
    (h : fetchRequest w rest = .ok (i, rest')) : step s = exec i { s with inputs := rest' } := by
  simp only [step, hin, h]

theorem step_of_error {s : State} {w : CmdWord} {rest : List Input} {r : Reject} (hin : s.inputs = .cmd w :: rest)
    (h : decode w (dataRun rest) = .error r) : step s = rejectRequest r { s with inputs := rest } := by
  simp only [step, hin, fetchRequest_of_error h]

theorem step_of_data {s : State} {b : Byte} {rest : List Input} (hin : s.inputs = .data b :: rest) :
    step s = .refused .strayData := by
  simp only [step, hin, rejectStray]

theorem step_of_reset {s : State} {rest : List Input} (hin : s.inputs = .reset :: rest) :
    step s = .next (hardwareReset { s with inputs := rest }) := by
  simp only [step, hin]

/-- Settles O5: the request is fetched whole, and nothing but it. -/
theorem stepRunsDecodedRequest : Obligations.StepRunsDecodedRequest :=
  fun _ _ _ _ rest h hin => step_of_fetch hin (fetchRequest_of_decode rest h)

/-- A reserved code selects no operation (R52). -/
theorem decode_of_reservedCode {w : CmdWord} (ds : List Byte)
    (h : opField w = 0x0 ∨ opField w = 0xD ∨ opField w = 0xE ∨ opField w = 0xF) : decode w ds = .error .badOp := by
  obtain h | h | h | h := h <;> exact decode_of_reserved ds (h ▸ by decide) (h ▸ rfl)

/-- Settles O6: a reserved code is refused whatever data bytes follow it. -/
theorem reservedCodesRefused : Obligations.ReservedCodesRefused :=
  fun _ _ rest hop hin => step_of_error hin (decode_of_reservedCode (dataRun rest) hop)

/-- Presenting a well-formed operation makes the next step that operation (R48). -/
theorem step_of_request {s : State} {i : Instr} {rest : List Input} (hwf : i.wellFormed = true)
    (hin : s.inputs = request i ++ rest) : step s = exec i { s with inputs := rest } := by
  have hdec := decodeEncodeAgree i [] hwf
  rw [List.append_nil] at hdec
  exact stepRunsDecodedRequest s _ _ i rest hdec hin

theorem exec_stage_of_oversize {s : State} (src dst : Byte) {data : List Byte} (h : s.cfg.txCap < data.length + 4) :
    exec (.stage src dst data) s = .next (refuse refStageLen s) :=
  if_pos h

/-- Settles O7: the request is taken whole before the operation is refused. -/
theorem oversizeStageDropsItsData : Obligations.OversizeStageDropsItsData := by
  intro s src dst data rest hlen hcap hin
  have hwf : (Instr.stage src dst data).wellFormed = true := decide_eq_true hlen
  rw [step_of_request hwf hin]
  exact exec_stage_of_oversize src dst hcap

/-! ### The message view of a held frame -/

/-- The snapshot holds exactly this validated frame. -/
structure HoldsMessage (bs : List Byte) (s : State) : Prop where
  consistent : Consistent s
  msgValid : s.msgValid = true
  msgLen : bs.length = s.msgLen
  holds : Holds .msgBuf bs s

theorem HoldsMessage.readByte {bs : List Byte} {s : State} (h : HoldsMessage bs s) {k : Nat} {v : Byte}
    (hk : bs[k]? = some v) : Machine.readByte .msgBuf k s = .ok v :=
  h.consistent.readMessage h.msgValid h.msgLen h.holds hk

theorem viewMessage_of_ok {s : State} {view : Except Fault Byte} {v : Byte} (hm : s.msgValid = true)
    (h : view = .ok v) : viewMessage view s = .next (respond v 0 s) := by
  simp only [viewMessage, hm, h, if_true]

theorem viewMessage_of_none {s : State} (view : Except Fault Byte) (hm : s.msgValid = false) :
    viewMessage view s = .next (refuse refNoMsg s) := by
  simp only [viewMessage, hm, Bool.false_eq_true, if_false]

theorem payloadByte_of_inBounds {s : State} {i len v : Byte} (hlen : readByte .msgBuf lenIdx s = .ok len)
    (hin : payInBounds s.cfg.pbStrict len.toNat i.toNat = true)
    (hv : readByte .msgBuf (payIdx i.toNat) s = .ok v) : payloadByte i s = .ok v := by
  simp only [payloadByte, hlen, if_pos hin, hv]

theorem payloadByte_of_outOfBounds {s : State} {i len : Byte} (hlen : readByte .msgBuf lenIdx s = .ok len)
    (hout : payInBounds s.cfg.pbStrict len.toNat i.toNat = false) : payloadByte i s = .ok 0 := by
  simp only [payloadByte, hlen, hout, Bool.false_eq_true, if_false]

theorem payInBounds_iff {strict : Bool} {len i : Nat} :
    payInBounds strict len i = true ↔ i + (if strict then 3 else 2) ≤ len := by
  cases strict <;> exact decide_eq_true_iff

/-- Even the original bound of MPAY stays inside the frame: its last offset is the checksum's (R88). -/
theorem lt_of_payInBounds {strict : Bool} {len i : Nat} (h : payInBounds strict len i = true) :
    payIdx i < len + 2 := by
  have hle := payInBounds_iff.1 h
  show 3 + i < len + 2
  split at hle <;> omega

/-! ### The operations, from what their shared operations answer -/

theorem exec_ingest_of_ok {b : Byte} {s t : State} (h : ingestByte b s = .ok t) :
    exec (.ingest b) s = .next (respond (bitByte t.rxPending) (ingestEvents s) t) := by
  simp only [exec, execIngest, h]

theorem exec_poll_of_ok {s t u : State} {ev : BitVec 8} {fired : Bool} (hpoll : pollByte s = .ok (t, ev))
    (hflush : flushStep t.rxTs t = .ok (u, fired)) :
    exec .poll s = .next (respond (bitByte u.rxPending) (ev ||| evIf fired evTxFlush) u) := by
  simp only [exec, execPoll, hpoll, hflush]

theorem exec_tryflush_of_ok {s t : State} {fired : Bool} (h : flushStep s.rxTs s = .ok (t, fired)) :
    exec .tryflush s = .next (respond (bitByte fired) (evIf fired evTxFlush) t) := by
  simp only [exec, execTryflush, h]

theorem exec_hasframe_of_holds {s : State} {bs : List Byte} (hcfg : s.cfg.legal) (hl : bs.length = s.rxLen)
    (h : Holds .rxBuf bs s) : exec .hasframe s = .next (respond (bitByte (decide (CompleteRun bs))) 0 s) := by
  simp only [exec, execHasframe, frameComplete_of_holds hcfg hl h]

theorem exec_ckvalid_of_holds {s : State} {bs : List Byte} (hcfg : s.cfg.legal) (hl : bs.length = s.rxLen)
    (hcap : s.rxLen ≤ s.cfg.rxCap) (h : Holds .rxBuf bs s) :
    exec .ckvalid s = .next (respond (bitByte (decide (ValidRun bs))) 0 s) := by
  simp only [exec, execCkvalid, frameValid_of_holds hcfg hl hcap h]

theorem exec_take_of_incomplete {s : State} {bs : List Byte} (hcfg : s.cfg.legal) (hl : bs.length = s.rxLen)
    (h : Holds .rxBuf bs s) (hc : ¬ CompleteRun bs) : exec .take s = .next (respond 0 0 s) := by
  simp only [exec, execTake, frameComplete_of_holds hcfg hl h, decide_eq_false hc]

theorem exec_take_of_badChecksum {s : State} {bs : List Byte} (hcfg : s.cfg.legal) (hl : bs.length = s.rxLen)
    (hcap : s.rxLen ≤ s.cfg.rxCap) (h : Holds .rxBuf bs s) (hc : CompleteRun bs) (hx : xorAll bs ≠ 0) :
    exec .take s = .next (respond 0 evRxCkFail (clearRx s)) := by
  simp only [exec, execTake, frameComplete_of_holds hcfg hl h, decide_eq_true hc, xorOk_of_holds hl hcap h hc,
    decide_eq_false hx]

/-! ### Every operation completes (R95) -/

theorem Consistent.pollByte_ok {s : State} (h : Consistent s) : ∃ t ev, Machine.pollByte s = .ok (t, ev) := by
  unfold Machine.pollByte
  split
  · exact ⟨_, _, rfl⟩
  · next b rest _ =>
    split
    · exact ⟨_, _, rfl⟩
    · obtain ⟨t, ht⟩ := (h.withPorts rest s.qTx s.response s.inputs).ingest_ok b
      exact ⟨t, ingestEvents s, by rw [ht]⟩

theorem Consistent.execPoll_ok {s : State} (h : Consistent s) : ∃ t, execPoll s = .next t := by
  obtain ⟨s1, ev, hpoll⟩ := h.pollByte_ok
  obtain ⟨s2, fired, hflush⟩ := (h.pollByte hpoll).flush_ok s1.rxTs
  exact ⟨_, exec_poll_of_ok hpoll hflush⟩

theorem Consistent.execTake_ok {s : State} (h : Consistent s) : ∃ t, execTake s = .next t := by
  obtain ⟨bs, hl, hb⟩ := h.rxBytes
  by_cases hcomplete : CompleteRun bs
  · by_cases hxor : xorAll bs = 0
    · obtain ⟨m, he, -⟩ := exec_take_of_valid h.cfgLegal hl h.rxLenLe hb ⟨hcomplete, hxor⟩
      exact ⟨_, he⟩
    · exact ⟨_, exec_take_of_badChecksum h.cfgLegal hl h.rxLenLe hb hcomplete hxor⟩
  · exact ⟨_, exec_take_of_incomplete h.cfgLegal hl hb hcomplete⟩

theorem execStage_ok {s : State} (src dst : Byte) (data : List Byte) :
    ∃ t, execStage src dst data s = .next t := by
  by_cases hfit : data.length + 4 ≤ s.cfg.txCap
  · obtain ⟨m, he, -⟩ := exec_stage_of_fits src dst hfit
    exact ⟨_, he⟩
  · exact ⟨_, exec_stage_of_oversize src dst (Nat.lt_of_not_le hfit)⟩

/-- A view answers when it reads a held message; without a snapshot it is refused (R85). -/
theorem Consistent.viewMessage_ok {s : State} {view : Except Fault Byte} (h : Consistent s)
    (hview : ∀ bs : List Byte, HoldsMessage bs s → CompleteRun bs → ∃ v, view = .ok v) :
    ∃ t, viewMessage view s = .next t := by
  cases hm : s.msgValid with
  | false => exact ⟨_, viewMessage_of_none view hm⟩
  | true =>
    obtain ⟨bs, hl, hb, hcomplete, -⟩ := h.msgFrame hm
    obtain ⟨v, hv⟩ := hview bs ⟨h, hm, hl, hb⟩ hcomplete
    exact ⟨_, viewMessage_of_ok hm hv⟩

/-- A complete frame has a source, a length and a destination (R20). -/
theorem Consistent.viewHeader_ok {s : State} (h : Consistent s) {k : Nat} (hk : k ≤ 4) :
    ∃ t, viewMessage (Machine.readByte .msgBuf k s) s = .next t :=
  h.viewMessage_ok fun bs hm ⟨hlong, _⟩ =>
    ⟨bs[k]'(Nat.lt_of_le_of_lt hk hlong), hm.readByte (List.getElem?_eq_getElem _)⟩

theorem Consistent.execMpay_ok {s : State} (h : Consistent s) (i : Byte) : ∃ t, execMpay i s = .next t := by
  refine h.viewMessage_ok fun bs hm hc => ?_
  obtain ⟨len, hlen, htotal⟩ := hc.last
  cases hin : payInBounds s.cfg.pbStrict len.toNat i.toNat with
  | false => exact ⟨_, payloadByte_of_outOfBounds (hm.readByte hlen) hin⟩
  | true =>
    have hlt : payIdx i.toNat < bs.length := htotal ▸ lt_of_payInBounds hin
    exact ⟨_, payloadByte_of_inBounds (hm.readByte hlen) hin (hm.readByte (List.getElem?_eq_getElem hlt))⟩

/-- No operation faults or is without a meaning on a state that meets the invariant (R95). -/
theorem Consistent.exec_ok {s : State} (h : Consistent s) (i : Instr) : ∃ t, Machine.exec i s = .next t := by
  cases i with
  | ingest b =>
    obtain ⟨t, ht⟩ := h.ingest_ok b
    exact ⟨_, exec_ingest_of_ok ht⟩
  | poll => exact h.execPoll_ok
  | hasframe =>
    obtain ⟨bs, hl, hb⟩ := h.rxBytes
    exact ⟨_, exec_hasframe_of_holds h.cfgLegal hl hb⟩
  | ckvalid =>
    obtain ⟨bs, hl, hb⟩ := h.rxBytes
    exact ⟨_, exec_ckvalid_of_holds h.cfgLegal hl h.rxLenLe hb⟩
  | take => exact h.execTake_ok
  | stage src dst data => exact execStage_ok src dst data
  | tryflush =>
    obtain ⟨t, fired, ht⟩ := h.flush_ok s.rxTs
    exact ⟨_, exec_tryflush_of_ok ht⟩
  | txpend => exact ⟨_, rfl⟩
  | msrc => exact h.viewHeader_ok (by decide)
  | mlen => exact h.viewHeader_ok (by decide)
  | mdst => exact h.viewHeader_ok (by decide)
  | mpay k => exact h.execMpay_ok k

/-! ### Where a step stops -/

/-- All a step from a state that meets the invariant can be: a next state, or one of the two stops (log 4). -/
theorem Consistent.step_outcomes {s : State} (h : Consistent s) :
    (∃ t, step s = .next t) ∨
    (step s = .refused .strayData ∧ ∃ b rest, s.inputs = .data b :: rest) ∨
    (step s = .refused .incompleteRequest ∧ ∃ w rest, s.inputs = .cmd w :: rest ∧
      decode w (dataRun rest) = .error .incomplete) := by
  cases hin : s.inputs with
  | nil => exact .inl ⟨_, step_of_no_input hin⟩
  | cons x rest =>
    cases x with
    | cmd w =>
      cases hd : decode w (dataRun rest) with
      | error r =>
        have hstep := step_of_error hin hd
        cases r with
        | badOp => exact .inl ⟨_, hstep⟩
        | incomplete => exact .inr (.inr ⟨hstep, w, rest, rfl, hd⟩)
      | ok p =>
        obtain ⟨i, left⟩ := p
        obtain ⟨t, ht⟩ := (h.withInputs (left.map .data ++ afterData rest)).exec_ok i
        have hfetch : fetchRequest w rest = .ok (i, left.map .data ++ afterData rest) := by
          simp only [fetchRequest, hd]
        exact .inl ⟨t, (step_of_fetch hin hfetch).trans ht⟩
    | data b => exact .inr (.inl ⟨step_of_data hin, b, rest, rfl⟩)
    | clock t => exact .inl ⟨_, step_of_clock hin⟩
    | receive b => exact .inl ⟨_, step_of_receive hin⟩
    | send => exact .inl ⟨_, step_of_send hin⟩
    | reset => exact .inl ⟨_, step_of_reset hin⟩

theorem Consistent.step_ne_fault {s : State} (h : Consistent s) (f : Fault) : step s ≠ .fault f := fun hs => by
  obtain ⟨t, hnext⟩ | ⟨hstop, -⟩ | ⟨hstop, -⟩ := h.step_outcomes
  · cases hs.symm.trans hnext
  · cases hs.symm.trans hstop
  · cases hs.symm.trans hstop

theorem Consistent.step_refused {s : State} {r : Refusal} (h : Consistent s) (hs : step s = .refused r) :
    (r = .strayData ∧ ∃ b rest, s.inputs = .data b :: rest) ∨
    (r = .incompleteRequest ∧ ∃ w rest, s.inputs = .cmd w :: rest ∧ decode w (dataRun rest) = .error .incomplete) := by
  obtain ⟨t, hnext⟩ | ⟨hstop, hcause⟩ | ⟨hstop, hcause⟩ := h.step_outcomes
  · cases hs.symm.trans hnext
  · exact .inl ⟨Host.Outcome.refused.inj (hs.symm.trans hstop), hcause⟩
  · exact .inr ⟨Host.Outcome.refused.inj (hs.symm.trans hstop), hcause⟩

/-- Settles O16: each stop has its own cause at the head of the inputs, and each cause its stop. -/
theorem onlyMalformedRequestsStop : Obligations.OnlyMalformedRequestsStop := by
  intro s h
  refine ⟨⟨fun hs => ?_, ?_⟩, ⟨fun hs => ?_, ?_⟩, h.step_ne_fault, fun r hs => ?_⟩
  · obtain ⟨-, hdata⟩ | ⟨hr, -⟩ := h.step_refused hs
    · exact hdata
    · cases hr
  · rintro ⟨b, rest, hin⟩
    exact step_of_data hin
  · obtain ⟨hr, -⟩ | ⟨-, w, rest, hin, hd⟩ := h.step_refused hs
    · cases hr
    · exact ⟨w, rest, hin, decode_eq_incomplete_iff.1 hd⟩
  · rintro ⟨w, rest, hin, hshort⟩
    exact step_of_error hin (decode_eq_incomplete_iff.2 hshort)
  · exact (h.step_refused hs).imp And.left And.left

end Sys2Proof.Machine
end

section
/-! PROOFS. Encoding (30_encoding.md), frames: lengths that are never complete (R54), the checksum's sensitivity to one
byte (R47), and the round trip of a staged frame from one core to another (R59). -/

namespace Sys2Proof.Machine

/-! ### Lengths that are never complete -/

/-- Settles O21: a complete run that fits the buffer declares 3 to 253. -/
theorem unframeableLengthsNeverComplete : Obligations.UnframeableLengthsNeverComplete := by
  intro s bs len h hl hb hlen hrange
  obtain ⟨hrxCap, -⟩ := h.cfgLegal
  have hroom : bs.length ≤ 255 := by rw [hl, ← hrxCap]; exact h.rxLenLe
  have hcomplete : ¬ CompleteRun bs := fun hc => by
    obtain ⟨-, hge, hle⟩ := hc.declared hroom hlen
    omega
  have hvalid : ¬ ValidRun bs := fun hv => hcomplete hv.1
  rw [exec_hasframe_of_holds h.cfgLegal hl hb, exec_ckvalid_of_holds h.cfgLegal hl h.rxLenLe hb,
    decide_eq_false hcomplete, decide_eq_false hvalid]
  exact ⟨rfl, rfl⟩

/-! ### One changed byte -/

/-- Changing one byte changes the XOR of all by the difference of that byte (R47). -/
theorem xorAll_set (bs : List Byte) (k : Nat) (v : Byte) (hk : k < bs.length) :
    xorAll (bs.set k v) = xorAll bs ^^^ (bs[k] ^^^ v) := by
  induction bs generalizing k with
  | nil => exact absurd hk (Nat.not_lt_zero k)
  | cons b bs ih =>
    cases k with
    | zero =>
      show v ^^^ xorAll bs = b ^^^ xorAll bs ^^^ (b ^^^ v)
      rw [BitVec.xor_comm b (xorAll bs), BitVec.xor_assoc, ← BitVec.xor_assoc b b v, BitVec.xor_self,
        BitVec.zero_xor, BitVec.xor_comm]
    | succ k =>
      show b ^^^ xorAll (bs.set k v) = b ^^^ xorAll bs ^^^ (bs[k]'(Nat.lt_of_succ_lt_succ hk) ^^^ v)
      rw [ih k (Nat.lt_of_succ_lt_succ hk), BitVec.xor_assoc]

/-- A frame with XOR 0 loses it when one byte changes (R47). -/
theorem xorAll_set_ne_zero {bs : List Byte} {k : Nat} {v : Byte} (hx : xorAll bs = 0) (hk : k < bs.length)
    (hv : bs[k]? ≠ some v) : xorAll (bs.set k v) ≠ 0 := by
  rw [xorAll_set bs k v hk, Ne, xor_eq_zero_iff, hx]
  intro h
  exact hv (by rw [List.getElem?_eq_getElem hk, (xor_eq_zero_iff _ _).1 h.symm])

/-- A complete run with another length byte declares a length it does not have (R45). -/
theorem not_completeRun_set_length {bs : List Byte} {v : Byte} (hc : CompleteRun bs) (hv : bs[1]? ≠ some v) :
    ¬ CompleteRun (bs.set 1 v) := fun hc' => by
  obtain ⟨len, hlen, htotal⟩ := hc.last
  obtain ⟨len', hlen', htotal'⟩ := hc'.last
  rw [List.length_set] at htotal'
  have h1 : 1 < bs.length := by omega
  rw [List.getElem?_set_self h1] at hlen'
  obtain rfl : v = len' := Option.some.inj hlen'
  have hsame : len = v := BitVec.eq_of_toNat_eq (by omega)
  exact hv (hsame ▸ hlen)

/-- A byte of the run written in place changes that byte of the run. -/
theorem Holds.set {s : State} {bs : List Byte} (h : Holds .rxBuf bs s) (k : Nat) (v : Byte) :
    Holds .rxBuf (bs.set k v) (s.setMem (s.rxBuf.set k v) .rxBuf) := fun j hj => by
  rw [List.length_set] at hj
  have hbyte := byteAt_setMem_set s .rxBuf .rxBuf k j v
  change (s.setMem (s.rxBuf.set k v) .rxBuf).byteAt .rxBuf j = _ at hbyte
  rw [hbyte, List.getElem?_set]
  by_cases hjk : j = k
  · subst hjk
    simp [hj]
  · rw [if_neg (fun hc => hjk hc.2), if_neg (Ne.symm hjk), h j hj]

/-- Settles O30: the XOR is no longer 0, and with another length byte the run is not even complete. -/
theorem oneChangedByteFailsChecksum : Obligations.OneChangedByteFailsChecksum := by
  intro s bs k v h hl hb ⟨hcomplete, hxor⟩ hk hv
  have hb' := hb.set k v
  have hcfg' : (s.setMem (s.rxBuf.set k v) .rxBuf).cfg.legal := h.cfgLegal
  have hl' : (bs.set k v).length = (s.setMem (s.rxBuf.set k v) .rxBuf).rxLen := by rw [List.length_set, hl]; rfl
  refine ⟨?_, fun h1 => ?_⟩
  · have hbad : ¬ ValidRun (bs.set k v) := fun hvalid =>
      xorAll_set_ne_zero hxor (Nat.lt_of_succ_lt hk) hv hvalid.2
    rw [exec_ckvalid_of_holds hcfg' hl' h.rxLenLe hb', decide_eq_false hbad]
    rfl
  · subst h1
    rw [exec_hasframe_of_holds hcfg' hl' hb', decide_eq_false (not_completeRun_set_length hcomplete hv)]
    rfl

/-! ### Bytes that arrive in time -/

/-- The state meets the invariant and its receive buffer has accumulated exactly this run. -/
structure Accumulated (run : List Byte) (s : State) : Prop where
  consistent : Consistent s
  rxLen : run.length = s.rxLen
  holds : Holds .rxBuf run s

theorem Accumulated.clockTo {run : List Byte} {s : State} (h : Accumulated run s) (t : Nat) :
    Accumulated run (Machine.clockTo t s) :=
  ⟨h.consistent.clockTo t, h.rxLen, h.holds⟩

theorem Accumulated.rxPending_iff {run : List Byte} {s : State} (h : Accumulated run s) :
    s.rxPending = true ↔ ValidRun run := by
  have hvalid := frameValid_of_holds h.consistent.cfgLegal h.rxLen h.consistent.rxLenLe h.holds
  have hpend := Except.ok.inj (h.consistent.rxPendingValid.symm.trans hvalid)
  rw [hpend, decide_eq_true_iff]

/-- A byte that arrives at `time` is stored behind the run INGEST starts from, which it stamps (R60). -/
theorem Accumulated.ingestTimed {run : List Byte} {s : State} (h : Accumulated run s) (time : Nat) (b : Byte) :
    ∃ t, exec (.ingest b) (Machine.clockTo time s) = .next t ∧
      Accumulated (runBefore (Machine.clockTo time s) run ++ [b]) t ∧ t.cfg = s.cfg ∧
      t.rxTs = time % s.cfg.timeRange := by
  have hc := h.clockTo time
  obtain ⟨t, he, hs⟩ := storedRun_of_ingest b hc.consistent hc.rxLen hc.holds
  exact ⟨t, he, ⟨hs.consistent, hs.rxLen.symm, hs.holds⟩, hs.frame.cfg, hs.rxTs⟩

/-- A run with room for one more byte, which comes less than `T_GAP` after the last, goes on (R60). -/
theorem Accumulated.runBefore_eq {run : List Byte} {s : State} (h : Accumulated run s) {time : Nat}
    (hroom : run.length < 255) (hgap : elapsed s.cfg time s.rxTs < s.cfg.tGap) :
    runBefore (Machine.clockTo time s) run = run := by
  have hlen : (Machine.clockTo time s).rxLen = run.length := h.rxLen.symm
  have helapsed : elapsed s.cfg (Machine.clockTo time s).now s.rxTs = elapsed s.cfg time s.rxTs :=
    elapsed_mod_now s.cfg time s.rxTs
  refine runBefore_of_fresh (h.clockTo time).consistent.cfgLegal ?_
  rw [hlen, clockTo_cfg, clockTo_rxTs, helapsed]
  omega

/-- Only the moment modulo the clock's range matters for what is in time. -/
theorem InTime.mod {c : Config} {ts : Nat} {timed : List (Nat × Byte)} (h : InTime c ts timed) :
    InTime c (ts % c.timeRange) timed := by
  cases timed with
  | nil => trivial
  | cons p rest =>
    obtain ⟨hfirst, hrest⟩ := h
    exact ⟨(elapsed_mod_ts c p.1 ts).symm ▸ hfirst, hrest⟩

/-- Bytes that all arrive in time go behind the run, in order, as long as the buffer has room (R60, R99). -/
theorem accumulated_of_ingestAt (timed : List (Nat × Byte)) :
    ∀ {run : List Byte} {s : State}, Accumulated run s → InTime s.cfg s.rxTs timed →
      run.length + timed.length ≤ 255 →
      ∃ t, ingestAt timed s = .next t ∧ Accumulated (run ++ timed.map Prod.snd) t := by
  induction timed with
  | nil =>
    intro run s h _ _
    exact ⟨s, rfl, (List.append_nil run).symm ▸ h⟩
  | cons p rest ih =>
    intro run s h ⟨hgap, hrest⟩ hroom
    obtain ⟨time, b⟩ := p
    rw [List.length_cons] at hroom
    obtain ⟨t, he, ht, hcfg, hts⟩ := h.ingestTimed time b
    rw [h.runBefore_eq (by omega) hgap] at ht
    have hroom' : (run ++ [b]).length + rest.length ≤ 255 := by
      rw [List.length_append, List.length_singleton]
      omega
    obtain ⟨u, hu, hall⟩ := ih ht (hcfg ▸ hts ▸ hrest.mod) hroom'
    rw [List.append_assoc, List.singleton_append] at hall
    exact ⟨u, by simp only [ingestAt, he, hu], hall⟩

/-- Into an empty buffer the first byte may come at any time: it starts the run (R59). -/
theorem accumulated_of_gapsBelow {s : State} {timed : List (Nat × Byte)} (h : Consistent s) (hempty : s.rxLen = 0)
    (hgaps : GapsBelow s.cfg timed) (hroom : timed.length ≤ 255) :
    ∃ t, ingestAt timed s = .next t ∧ Accumulated (timed.map Prod.snd) t := by
  have hnone : Accumulated [] s := ⟨h, hempty.symm, fun _ hk => absurd hk (Nat.not_lt_zero _)⟩
  cases timed with
  | nil => exact ⟨s, rfl, hnone⟩
  | cons p rest =>
    obtain ⟨time, b⟩ := p
    obtain ⟨t, he, ht, hcfg, hts⟩ := hnone.ingestTimed time b
    rw [show runBefore (clockTo time s) [] = [] from ite_self _, List.nil_append] at ht
    have hrest : InTime s.cfg time rest := hgaps
    obtain ⟨u, hu, hall⟩ := accumulated_of_ingestAt rest ht (hcfg ▸ hts ▸ hrest.mod)
      (by rw [List.length_singleton, Nat.add_comm]; exact hroom)
    exact ⟨u, by simp only [ingestAt, he, hu], hall⟩

/-! ### The round trip -/

theorem HoldsMessage.exec_mpay {bs : List Byte} {s : State} (h : HoldsMessage bs s) {i len v : Byte}
    (hlen : bs[1]? = some len) (hin : payInBounds s.cfg.pbStrict len.toNat i.toNat = true)
    (hv : bs[3 + i.toNat]? = some v) : exec (.mpay i) s = .next (respond v 0 s) :=
  viewMessage_of_ok h.msgValid (payloadByte_of_inBounds (h.readByte hlen) hin (h.readByte hv))

/-- TAKE of a valid frame leaves it in the snapshot (R64). -/
theorem Accumulated.exec_take {run : List Byte} {s : State} (h : Accumulated run s) (hv : ValidRun run) :
    ∃ t, exec .take s = .next t ∧ Performed 1 0x40 t ∧ HoldsMessage run t := by
  obtain ⟨m, he, hget, -⟩ := exec_take_of_valid h.consistent.cfgLegal h.rxLen h.consistent.rxLenLe h.holds hv
  exact ⟨_, he, rfl, h.consistent.exec he, rfl, h.rxLen, fun k hk => (hget k).trans (if_pos hk)⟩

/-- A payload offset is within both bounds of MPAY (R88). -/
theorem payInBounds_of_lt (strict : Bool) {len i : Nat} (h : i + 3 ≤ len) : payInBounds strict len i = true := by
  rw [payInBounds_iff]
  split <;> omega

/-- A frame STAGE builds around at least one payload byte is valid (R45 to R47). -/
theorem buildFrame_validRun (src dst : Byte) {data : List Byte} (hpos : 1 ≤ data.length)
    (hmax : data.length + 4 ≤ 255) : ValidRun (buildFrame src dst data) := by
  have hlen := buildFrame_length src dst data
  exact ⟨⟨by omega, buildFrame_lengthMatches src dst (by omega)⟩, buildFrame_xorAll src dst data⟩

/-- The views of a message STAGE built answer what STAGE was given (R59). -/
theorem HoldsMessage.views_of_buildFrame {src dst : Byte} {data : List Byte} {s : State}
    (h : HoldsMessage (buildFrame src dst data) s) (hmax : data.length + 4 ≤ 255) :
    exec .msrc s = .next (respond src 0 s) ∧
    exec .mlen s = .next (respond (BitVec.ofNat 8 (data.length + 2)) 0 s) ∧
    exec .mdst s = .next (respond dst 0 s) ∧
    ∀ k v, data[k]? = some v → exec (.mpay (BitVec.ofNat 8 k)) s = .next (respond v 0 s) := by
  obtain ⟨hsrc, hlen, hdst, hpay, -⟩ := buildFrame_getElem src dst data
  refine ⟨viewMessage_of_ok h.msgValid (h.readByte hsrc), viewMessage_of_ok h.msgValid (h.readByte hlen),
    viewMessage_of_ok h.msgValid (h.readByte hdst), fun k v hk => ?_⟩
  have hlt : k < data.length := (List.getElem?_eq_some_iff.1 hk).1
  have hoff : (BitVec.ofNat 8 k).toNat = k := by
    rw [BitVec.toNat_ofNat, Nat.mod_eq_of_lt (by omega)]
  refine h.exec_mpay hlen (payInBounds_of_lt _ ?_) ?_
  · rw [hoff, declaredLength_toNat (by omega)]
    omega
  · rw [hoff, hpay k hlt, hk]

/-- On an idle bus STAGE and TRYFLUSH put the built frame on the wire (R75, R76). -/
theorem exec_stage_tryflush {s : State} (src dst : Byte) {data : List Byte}
    (hfit : data.length + 4 ≤ s.cfg.txCap) (hidle : s.cfg.tIdle ≤ elapsed s.cfg s.now s.rxTs) :
    ∃ s1 s2, exec (.stage src dst data) s = .next s1 ∧ exec .tryflush s1 = .next s2 ∧
      s2.qTx = s.qTx ++ buildFrame src dst data := by
  obtain ⟨m, he, hget, -⟩ := exec_stage_of_fits src dst hfit
  have hfires := flushStep_fires (s := respond 0 0
      { s with txBuf := m, txLen := data.length + 4, txPending := true }) (tLast := s.rxTs)
    (decide_eq_true hidle) (buildFrame_length src dst data) hfit
    fun k hk => (hget k).trans (if_pos (buildFrame_length src dst data ▸ hk))
  exact ⟨_, _, he, exec_tryflush_of_ok hfires, rfl⟩

/-- Settles O52: what is put on the wire accumulates whole, is valid, and is what the views then read. -/
theorem stagedFrameRoundTrips : Obligations.StagedFrameRoundTrips := by
  intro s r src dst data hs hr hpos hfit hidle hempty
  obtain ⟨-, -, -, -, -, htxCap, -⟩ := hs.cfgLegal
  have hlen := buildFrame_length src dst data
  obtain ⟨s1, s2, hstage, hflush, hwire⟩ := exec_stage_tryflush src dst hfit hidle
  refine ⟨s1, s2, buildFrame src dst data, hstage, hflush, hwire, hlen, fun timed htimed hgaps => ?_⟩
  have hcount : timed.length = data.length + 4 := by rw [← hlen, ← htimed, List.length_map]
  have hvalid : ValidRun (buildFrame src dst data) := buildFrame_validRun src dst hpos (by omega)
  obtain ⟨r1, hr1, hacc⟩ := accumulated_of_gapsBelow hr hempty hgaps (by omega)
  rw [htimed] at hacc
  refine ⟨r1, hr1, hacc.rxPending_iff.2 hvalid, fun now => ?_⟩
  obtain ⟨r2, htake, hperformed, hmsg⟩ := (hacc.clockTo now).exec_take hvalid
  exact ⟨r2, htake, hperformed, hmsg.views_of_buildFrame (by omega)⟩

end Sys2Proof.Machine
end

section
/-! PROOFS. Receive (40_receive.md), the bytes that come in: INGEST and its overflow (R60, R66, R98, R99), and POLL,
which discards an echo byte, ingests the head of `Q_rx` or is the flush step (R61). -/

namespace Sys2Proof.Machine

/-! ### INGEST -/

/-- The events of an INGEST, with `RX_OVF` at its one legal value (R60, R101). -/
theorem ingestEvents_of_legal {s : State} (hcfg : s.cfg.legal) :
    ingestEvents s = (if 254 < s.rxLen then 0x01 else 0) |||
      (if s.cfg.tGap ≤ elapsed s.cfg s.now s.rxTs ∧ 0 < s.rxLen then 0x02 else 0) ||| 0x10 := by
  simp only [ingestEvents, State.rxFull, State.gapExpired, rxOvf_of_legal hcfg, ← Bool.decide_and, evIf,
    decide_eq_true_eq]
  rfl

/-- Settles O17: the run INGEST starts from is empty or all that was accumulated, as `runBefore` decides. -/
theorem ingestAppendsToRun : Obligations.IngestAppendsToRun := by
  intro s bs b h hl hb
  obtain ⟨t, he, hstored⟩ := storedRun_of_ingest b h hl hb
  obtain ⟨m, he', hget, -⟩ := exec_ingest_of_holds b h.cfgLegal hl h.rxLenLe hb
  rw [ingestEvents_of_legal h.cfgLegal] at he'
  obtain rfl := Host.Outcome.next.inj (he'.symm.trans he)
  refine ⟨_, runBefore s bs ++ [b], he, fun hstale => ?_, fun hfresh => ?_, hstored.rxLen, hstored.holds,
    hstored.rxTs, hstored.rxPending, rfl, fun k hk => ?_, hstored.frame⟩
  · rw [runBefore_of_stale h.cfgLegal hstale, List.nil_append]
  · rw [runBefore_of_fresh h.cfgLegal hfresh]
  · have hother : k ≠ (runBefore s bs).length := by
      rw [List.length_append, List.length_singleton] at hk
      omega
    exact (hget k).trans (if_neg hother)

/-- A run of at most four bytes is no complete frame (R20). -/
theorem not_completeRun_of_short {run : List Byte} (h : run.length ≤ 4) : ¬ CompleteRun run :=
  fun hc => absurd hc.1 (Nat.not_lt_of_le h)

/-- Settles O19: the burst is stored whole, and the byte after it finds the buffer full at the same moment. -/
theorem overflowClearsAtNextByte : Obligations.OverflowClearsAtNextByte := by
  intro s bs b h hempty hgap hfull
  have hne : bs ≠ [] := List.ne_nil_of_length_pos (by omega)
  obtain ⟨t, ht, hstored⟩ := storedRun_of_burst h hempty hgap hne (Nat.le_of_eq hfull)
  have htfull : t.rxLen = 255 := hstored.rxLen.trans hfull
  have hnogap : ¬ t.cfg.tGap ≤ elapsed t.cfg t.now t.rxTs := by
    rw [hstored.rxTs, hstored.frame.now, elapsed_self, hstored.frame.cfg]
    exact Nat.not_le_of_lt hgap
  obtain ⟨u, run, hu, hcleared, -, hulen, huholds, -, hupend, hperformed, -⟩ :=
    ingestAppendsToRun t bs b hstored.consistent hstored.rxLen.symm hstored.holds
  obtain rfl := hcleared (.inl (by omega))
  have hpend : u.rxPending = false := by
    rw [Bool.eq_false_iff, Ne, hupend]
    exact fun hvalid => not_completeRun_of_short (by simp) hvalid.1
  refine ⟨t, u, ht, htfull, hstored.holds, hu, hulen, huholds 0 Nat.one_pos, hpend, ?_⟩
  rw [hpend, htfull, if_neg (not_and_of_not_left _ hnogap)] at hperformed
  exact hperformed

/-! ### POLL -/

/-- POLL's byte step within the echo window, nothing pending (R61). -/
theorem pollByte_of_echo {s : State} {b : Byte} {rest : List Byte} (hq : s.qRx = b :: rest) (hecho : 0 < s.echoRem)
    (hidle : s.txPending = false) :
    pollByte s = .ok ({ s with qRx := rest, echoRem := s.echoRem - 1 }, evEchoDrop) := by
  simp [pollByte, hq, State.echoActive, hecho, hidle]

theorem pollByte_of_empty {s : State} (hq : s.qRx = []) : pollByte s = .ok (s, 0) := by
  simp only [pollByte, hq]

theorem flushStep_of_notPending {s : State} (tLast : Nat) (h : s.txPending = false) :
    flushStep tLast s = .ok (s, false) :=
  flushStep_waits (by rw [h, Bool.false_and])

/-- Settles O22: with nothing pending the flush step waits. -/
theorem pollDiscardsEcho : Obligations.PollDiscardsEcho := fun _ _ _ hq hecho hidle =>
  exec_poll_of_ok (pollByte_of_echo hq hecho hidle) (flushStep_of_notPending _ hidle)

/-- Settles O23: the ingested byte stamps `rx_ts` with the present moment, since when no time has passed. -/
theorem pollIngestsHeadOfQueue : Obligations.PollIngestsHeadOfQueue := by
  intro s b rest h hq hwindow hidle
  obtain ⟨t, ht⟩ := (h.withPorts rest s.qTx s.response s.inputs).ingest_ok b
  have hpoll : pollByte s = .ok (t, ingestEvents s) := pollByte_of_ingest hq hwindow ht
  obtain ⟨m, n, pend, hshape, -⟩ := ingestByte_cases ht
  have hbusy : t.idleSince t.rxTs = false := by
    subst hshape
    exact idleSince_now hidle
  have hwaits : flushStep t.rxTs t = .ok (t, false) := flushStep_waits (by rw [hbusy, Bool.and_false])
  have hevents : ingestEvents s ||| evIf false evTxFlush = ingestEvents s := BitVec.or_zero
  have hexec := exec_poll_of_ok hpoll hwaits
  rw [hevents] at hexec
  exact ⟨_, hexec, exec_ingest_of_ok ht, by rw [hshape]; rfl⟩

/-- The flush step fires exactly on a pending frame and an idle bus (R76). -/
theorem flushStep_fired_iff {s t : State} {tLast : Nat} {fired : Bool} (h : flushStep tLast s = .ok (t, fired)) :
    fired = true ↔ s.txPending = true ∧ s.cfg.tIdle ≤ elapsed s.cfg s.now tLast := by
  obtain ⟨rfl, -, hwaits⟩ | ⟨rfl, hpend, hidle, -⟩ := flushStep_cases h
  · simpa [State.idleSince] using hwaits
  · exact iff_of_true rfl ⟨hpend, hidle⟩

/-- Settles O24: without a byte POLL and TRYFLUSH are one flush step, which both answer in their own way. -/
theorem pollOnEmptyQueueIsFlushStep : Obligations.PollOnEmptyQueueIsFlushStep := by
  intro s h hq
  obtain ⟨u, fired, hflush⟩ := h.flush_ok s.rxTs
  have hevents : 0 ||| evIf fired evTxFlush =
      if s.txPending ∧ s.cfg.tIdle ≤ elapsed s.cfg s.now s.rxTs then 0x20 else 0 :=
    BitVec.zero_or.trans (if_congr (flushStep_fired_iff hflush) rfl rfl)
  have hexec := exec_poll_of_ok (pollByte_of_empty hq) hflush
  rw [hevents] at hexec
  obtain ⟨q, p, e, rfl⟩ := flushStep_frame hflush
  exact ⟨_, _, hexec, exec_tryflush_of_ok hflush, rfl, rfl, rfl, rfl, fun _ => rfl⟩

/-- POLL's byte step takes the head of `Q_rx`, if there is one, and writes one byte of `rx_buf` at most: the last of the
run (R61). -/
theorem pollByte_frame {s t : State} {ev : BitVec 8} (h : pollByte s = .ok (t, ev)) :
    ∃ m len pend ts echo, t = { s with
        rxBuf := m, rxLen := len, rxPending := pend, rxTs := ts, echoRem := echo, qRx := s.qRx.tail } ∧
      (∀ k, k + 1 ≠ len → Memory.get m k = s.byteAt .rxBuf k) ∧ (s.qRx = [] → m = s.rxBuf) := by
  obtain ⟨hq, rfl, -⟩ | ⟨b, rest, hq, -, -, -, rfl⟩ | ⟨b, rest, hq, -, -, hb⟩ := pollByte_cases h
  · exact ⟨t.rxBuf, t.rxLen, t.rxPending, t.rxTs, t.echoRem, by rw [hq, List.tail_nil, ← hq],
      fun _ _ => rfl, fun _ => rfl⟩
  · exact ⟨s.rxBuf, s.rxLen, s.rxPending, s.rxTs, s.echoRem - 1, by rw [hq, List.tail_cons],
      fun _ _ => rfl, fun _ => rfl⟩
  · obtain ⟨m, n, pend, rfl, -, -, hother⟩ := ingestByte_cases hb
    exact ⟨m, n + 1, pend, s.now, s.echoRem, by rw [hq, List.tail_cons],
      fun k hk => hother k (fun hkn => hk (congrArg (· + 1) hkn)),
      fun hnil => absurd (hq.symm.trans hnil) (List.cons_ne_nil b rest)⟩

/-- Settles O43: the frame of the byte step; the flush step writes nothing of what is named here. -/
theorem pollFrame : Obligations.PollFrame := by
  intro s t h
  obtain ⟨s1, ev, s2, fired, hpoll, hflush, rfl⟩ := execPoll_cases h
  obtain ⟨q, p, e, rfl⟩ := flushStep_frame hflush
  obtain ⟨m, len, pend, ts, echo, rfl, hother, hsame⟩ := pollByte_frame hpoll
  exact ⟨fun _ => rfl, rfl, rfl, fun _ => rfl, rfl, rfl, rfl, rfl, rfl, hother,
    fun hnil => State.byteAt_congr (sp := .rxBuf) (hsame hnil)⟩

end Sys2Proof.Machine
end

section
/-! PROOFS. Receive (40_receive.md), the frame: HASFRAME and CKVALID (R62, R63), TAKE (R64), and the receive machine
(R24, R65). -/

namespace Sys2Proof.Machine

/-! ### HASFRAME and CKVALID -/

theorem bitByte_decide (p : Prop) [Decidable p] : bitByte (decide p) = if p then 1 else 0 := by
  simp only [bitByte, decide_eq_true_eq]

/-- Settles O25: `Complete` of the bytes the buffer holds goes to the response port, and nothing anywhere else. -/
theorem hasframeReportsComplete : Obligations.HasframeReportsComplete := by
  intro s bs h hl hb
  rw [exec_hasframe_of_holds h.cfgLegal hl hb, bitByte_decide]
  rfl

/-- Settles O26: likewise `Valid`, which is `Complete and XorOk`. -/
theorem ckvalidReportsValid : Obligations.CkvalidReportsValid := by
  intro s bs h hl hb
  rw [exec_ckvalid_of_holds h.cfgLegal hl h.rxLenLe hb, bitByte_decide]
  rfl

/-! ### TAKE -/

/-- Settles O28: the three branches of `execTake`, by what the buffer holds. -/
theorem takeExtractsOrDiscards : Obligations.TakeExtractsOrDiscards := by
  intro s bs h hl hb
  refine ⟨fun hvalid => ?_, fun ⟨hcomplete, hxor⟩ => ?_, fun hincomplete => ?_⟩
  · obtain ⟨m, he, hget, -⟩ := exec_take_of_valid h.cfgLegal hl h.rxLenLe hb hvalid
    obtain ⟨f, hrxBuf⟩ := execTake_frame he
    exact ⟨_, he, fun k hk => (hget k).trans (if_pos hk), rfl, rfl, rfl, rfl, rfl, rfl,
      fun k hk => (hget k).trans (if_neg (Nat.not_lt_of_le hk)), State.byteAt_congr (sp := .rxBuf) hrxBuf,
      State.byteAt_congr f.txBuf, f.echoRem, f.txLen, f.txPending, f.qRx, f.qTx, f.now, f.inputs, f.cfg⟩
  · exact exec_take_of_badChecksum h.cfgLegal hl h.rxLenLe hb hcomplete hxor
  · exact exec_take_of_incomplete h.cfgLegal hl hb hincomplete

theorem Accumulated.of_empty {s : State} (h : Consistent s) (hempty : s.rxLen = 0) : Accumulated [] s :=
  ⟨h, hempty.symm, fun _ hk => absurd hk (Nat.not_lt_zero _)⟩

/-- TAKE of a complete frame leaves the buffer empty, whether it extracts or discards the frame (R64). -/
theorem Accumulated.exec_take_clears {run : List Byte} {s : State} (h : Accumulated run s) (hc : CompleteRun run) :
    ∃ t, exec .take s = .next t ∧ Accumulated [] t := by
  obtain ⟨hextract, hdiscard, -⟩ := takeExtractsOrDiscards s run h.consistent h.rxLen h.holds
  by_cases hxor : xorAll run = 0
  · obtain ⟨t, he, -, -, -, hlen, -⟩ := hextract ⟨hc, hxor⟩
    exact ⟨t, he, .of_empty (h.consistent.exec he) hlen⟩
  · have he := hdiscard ⟨hc, hxor⟩
    exact ⟨_, he, .of_empty (h.consistent.exec he) rfl⟩

/-- Settles O29: no bytes are no complete frame. -/
theorem takenFrameIsConsumed : Obligations.TakenFrameIsConsumed := by
  intro s bs h hl hb hvalid
  obtain ⟨t, he, hperformed, -⟩ := Accumulated.exec_take ⟨h, hl, hb⟩ hvalid
  obtain ⟨t', he', hempty⟩ := Accumulated.exec_take_clears ⟨h, hl, hb⟩ hvalid.1
  obtain rfl := Host.Outcome.next.inj (he.symm.trans he')
  have hnone : ¬ CompleteRun [] := not_completeRun_of_short (Nat.zero_le _)
  refine ⟨t, he, hperformed, hempty.rxLen.symm, ?_, ?_⟩
  · rw [exec_hasframe_of_holds hempty.consistent.cfgLegal hempty.rxLen hempty.holds, decide_eq_false hnone]
    rfl
  · exact exec_take_of_incomplete hempty.consistent.cfgLegal hempty.rxLen hempty.holds hnone

/-! ### The receive machine -/

/-- The receive machine's state as a fact about the run of bytes the buffer holds (R24). -/
def phaseOfRun (run : List Byte) : RxPhase :=
  if CompleteRun run then if xorAll run = 0 then .completeValid else .completeInvalid
  else if run = [] then .empty else .accumulating

theorem Accumulated.rxPhase_eq {run : List Byte} {s : State} (h : Accumulated run s) :
    rxPhase s = .ok (phaseOfRun run) := by
  have hcomplete := frameComplete_of_holds h.consistent.cfgLegal h.rxLen h.holds
  by_cases hc : CompleteRun run
  · have hxor := xorOk_of_holds h.rxLen h.consistent.rxLenLe h.holds hc
    rw [decide_eq_true hc] at hcomplete
    by_cases hx : xorAll run = 0
    · rw [decide_eq_true hx] at hxor
      simp only [rxPhase, hcomplete, hxor, phaseOfRun, if_pos hc, if_pos hx]
    · rw [decide_eq_false hx] at hxor
      simp only [rxPhase, hcomplete, hxor, phaseOfRun, if_pos hc, if_neg hx]
  · rw [decide_eq_false hc] at hcomplete
    simp only [rxPhase, hcomplete, phaseOfRun, if_neg hc, ← h.rxLen, List.length_eq_zero_iff]

theorem phaseOfRun_of_incomplete {run : List Byte} (hc : ¬ CompleteRun run) (hne : run ≠ []) :
    phaseOfRun run = .accumulating := by
  rw [phaseOfRun, if_neg hc, if_neg hne]

theorem phaseOfRun_eq_empty_iff {run : List Byte} : phaseOfRun run = .empty ↔ run = [] := by
  refine ⟨fun h => ?_, fun h => h ▸ rfl⟩
  by_contra hne
  by_cases hc : CompleteRun run
  · rw [phaseOfRun, if_pos hc] at h
    split at h <;> cases h
  · rw [phaseOfRun_of_incomplete hc hne] at h
    cases h

theorem phaseOfRun_complete_iff {run : List Byte} :
    phaseOfRun run = .completeValid ∨ phaseOfRun run = .completeInvalid ↔ CompleteRun run := by
  by_cases hc : CompleteRun run
  · refine iff_of_true ?_ hc
    rw [phaseOfRun, if_pos hc]
    split
    · exact .inl rfl
    · exact .inr rfl
  · refine iff_of_false ?_ hc
    rw [phaseOfRun, if_neg hc]
    split <;> simp

theorem phaseOfRun_incomplete_iff {run : List Byte} :
    phaseOfRun run = .empty ∨ phaseOfRun run = .accumulating ↔ ¬ CompleteRun run := by
  rw [← phaseOfRun_complete_iff]
  cases phaseOfRun run <;> simp

/-- With more bytes behind it a complete run declares a length it no longer has (R20, R121). -/
theorem not_completeRun_append {run more : List Byte} (hc : CompleteRun run) (hne : more ≠ []) :
    ¬ CompleteRun (run ++ more) := by
  intro hc'
  obtain ⟨len, hlen, htotal⟩ := hc.last
  obtain ⟨len', hlen', htotal'⟩ := hc'.last
  have hpos : 0 < more.length := List.length_pos_iff.2 hne
  rw [List.getElem?_append_left (by omega), hlen] at hlen'
  obtain rfl := Option.some.inj hlen'
  rw [List.length_append] at htotal'
  omega

/-- Settles O49: both rows, read off the runs the buffer holds before and after. -/
theorem receiveMachineTransitions : Obligations.ReceiveMachineTransitions := by
  intro s b p h hp
  obtain ⟨bs, hl, hb⟩ := h.rxBytes
  have hacc : Accumulated bs s := ⟨h, hl, hb⟩
  obtain rfl := Except.ok.inj (hp.symm.trans hacc.rxPhase_eq)
  constructor
  · obtain ⟨t, ht, hstored⟩ := storedRun_of_ingest b h hl hb
    have hphase := Accumulated.rxPhase_eq ⟨hstored.consistent, hstored.rxLen.symm, hstored.holds⟩
    refine ⟨t, _, ht, hphase, ?_, fun hstart => ?_, fun hroom hgap => ?_⟩
    · exact fun hempty => List.concat_ne_nil b _ (phaseOfRun_eq_empty_iff.1 hempty)
    · have hrun : runBefore s bs = [] := by
        obtain hfull | hgap | hempty := hstart
        · exact runBefore_of_stale h.cfgLegal (.inl (by omega))
        · exact runBefore_of_stale h.cfgLegal (.inr hgap)
        · rw [phaseOfRun_eq_empty_iff.1 hempty]
          exact ite_self _
      rw [hstored.rxLen, hrun, List.nil_append]
      exact ⟨phaseOfRun_of_incomplete (not_completeRun_of_short (by simp)) (List.cons_ne_nil b []), rfl⟩
    · have hrun : runBefore s bs = bs := runBefore_of_fresh h.cfgLegal (by omega)
      rw [hstored.rxLen, hrun, List.length_append, List.length_singleton, hl]
      refine ⟨rfl, fun hphase => phaseOfRun_of_incomplete ?_ (List.concat_ne_nil b bs)⟩
      exact not_completeRun_append (phaseOfRun_complete_iff.1 hphase) (List.cons_ne_nil b [])
  · by_cases hc : CompleteRun bs
    · obtain ⟨t, ht, hempty⟩ := hacc.exec_take_clears hc
      exact ⟨t, .empty, ht, hempty.rxPhase_eq, fun _ => rfl, fun hi => absurd hc (phaseOfRun_incomplete_iff.1 hi)⟩
    · have hsame : Accumulated bs (respond 0 0 s) := ⟨h.respond 0 0, hl, hb⟩
      exact ⟨_, _, exec_take_of_incomplete h.cfgLegal hl hb hc, hsame.rxPhase_eq,
        fun hcomplete => absurd (phaseOfRun_complete_iff.1 hcomplete) hc, fun _ => ⟨rfl, rfl⟩⟩

theorem frameValid_of_complete {s : State} (h : frameComplete s = .ok true) : frameValid s = xorOk s := by
  simp only [frameValid, h]

/-- The receive machine's state reads only the receive buffer, its length and the parameters (R24). -/
theorem rxPhase_of_eq {s t : State} (hbuf : t.rxBuf = s.rxBuf) (hlen : t.rxLen = s.rxLen) (hcfg : t.cfg = s.cfg) :
    rxPhase t = rxPhase s := by
  have hcomplete : frameComplete t = frameComplete s := by
    cases s; cases t; cases hbuf; cases hlen; cases hcfg
    rfl
  cases hc : frameComplete s with
  | error f => simp only [rxPhase, hcomplete, hc]
  | ok c =>
    cases c with
    | false => simp only [rxPhase, hcomplete, hc, hlen]
    | true =>
      have hxor : xorOk t = xorOk s := by
        rw [← frameValid_of_complete hc, ← frameValid_of_complete (hcomplete.trans hc),
          frameValid_of_eq hbuf hlen hcfg]
      simp only [rxPhase, hcomplete, hc, hxor]

/-- An operation that is no INGEST, POLL or TAKE writes the transmit side and the response port at most (R27). -/
theorem exec_sparesReceiveSide {i : Instr} {s t : State} (hingest : ∀ b, i ≠ .ingest b) (hpoll : i ≠ .poll)
    (htake : i ≠ .take) (h : exec i s = .next t) :
    ∃ m len pend echo q r, t = { s with
      txBuf := m, txLen := len, txPending := pend, echoRem := echo, qTx := q, response := r } := by
  obtain ⟨r, rfl⟩ | ⟨b, hi, -⟩ | ⟨hi, -⟩ | ⟨hi, -⟩ | ⟨src, dst, data, -, hstage⟩ |
    ⟨-, htry⟩ := exec_cases h
  · exact ⟨_, _, _, _, _, _, rfl⟩
  · exact absurd hi (hingest b)
  · exact absurd hi hpoll
  · exact absurd hi htake
  · obtain ⟨-, rfl⟩ | ⟨-, m, rfl⟩ := execStage_cases hstage
    · exact ⟨_, _, _, _, _, _, rfl⟩
    · exact ⟨_, _, _, _, _, _, rfl⟩
  · obtain ⟨s', fired, hflush, rfl⟩ := execTryflush_cases htry
    obtain ⟨q, p, e, rfl⟩ := flushStep_frame hflush
    exact ⟨_, _, _, _, _, _, rfl⟩

/-- Settles O50: what `exec_sparesReceiveSide` leaves is all the receive machine and the snapshot consist of. -/
theorem otherOpsKeepReceiveMachine : Obligations.OtherOpsKeepReceiveMachine := by
  intro i s t hingest hpoll htake h
  obtain ⟨m, len, pend, echo, q, r, rfl⟩ := exec_sparesReceiveSide hingest hpoll htake h
  exact ⟨rxPhase_of_eq rfl rfl rfl, rfl, rfl, rfl, fun _ => rfl, rfl, rfl, fun _ => rfl, rfl⟩

end Sys2Proof.Machine
end

section
/-! PROOFS. Transmit (41_transmit.md), the operations: STAGE, TRYFLUSH and TXPEND (R75 to R77), and the transmit path
(R24, R78). -/

namespace Sys2Proof.Machine

/-! ### STAGE -/

/-- The checksum STAGE appends, byte by byte (R47). -/
theorem xorAll_frameBody (src dst : Byte) (data : List Byte) :
    xorAll (frameBody src dst data) = src ^^^ declaredLength data.length ^^^ dst ^^^ xorAll data := by
  simp only [frameBody, xorAll_cons, BitVec.xor_assoc]

/-- Settles O31: the bytes of the built frame by index, the frame of `exec_stage_of_fits`, and the refusal. -/
theorem stageBuildsFrame : Obligations.StageBuildsFrame := by
  intro s src dst data hcap
  refine ⟨fun hfit => ?_, fun hlong => exec_stage_of_oversize src dst hlong⟩
  obtain ⟨m, he, hget, -⟩ := exec_stage_of_fits src dst hfit
  obtain ⟨hsrc, hlen, hdst, hpay, hsum⟩ := buildFrame_getElem src dst data
  rw [xorAll_frameBody] at hsum
  have hframe : ∀ {k : Nat} {v : Option Byte}, k < data.length + 4 → (buildFrame src dst data)[k]? = v →
      Memory.get m k = v := fun hk hv => (hget _).trans ((if_pos hk).trans hv)
  exact ⟨_, he, hframe (by omega) hsrc,
    ⟨declaredLength data.length, hframe (by omega) hlen, declaredLength_toNat (by omega)⟩,
    hframe (by omega) hdst, fun k hk => hframe (by omega) (hpay k hk), hframe (by omega) hsum, rfl, rfl, rfl,
    fun k hk => (hget k).trans (if_neg (Nat.not_lt.2 hk)), fun _ => rfl, fun _ => rfl,
    rfl, rfl, rfl, rfl, rfl, rfl, rfl, rfl, rfl, rfl, rfl⟩

/-! ### TRYFLUSH and TXPEND -/

/-- Settles O32: the flush step fires on a pending frame and an idle bus, and waits when either is missing. -/
theorem tryflushSendsWhenIdle : Obligations.TryflushSendsWhenIdle := by
  intro s h
  refine ⟨fun hpend hidle bs hlen hbs => ?_, fun hwait => ?_⟩
  · have hgo : (s.txPending && s.idleSince s.rxTs) = true := Bool.and_eq_true_iff.2 ⟨hpend, decide_eq_true hidle⟩
    exact exec_tryflush_of_ok (flushStep_fires hgo hlen h.txLenLe hbs)
  · have hstay : (s.txPending && s.idleSince s.rxTs) = false := by
      obtain hnone | hbusy := hwait
      · rw [hnone, Bool.false_and]
      · rw [State.idleSince, decide_eq_false (Nat.not_le.2 hbusy), Bool.and_false]
    exact exec_tryflush_of_ok (flushStep_waits hstay)

/-- Settles O33: the flag goes to the response port, and nothing anywhere else. -/
theorem txpendReportsFlag : Obligations.TxpendReportsFlag := fun _ => rfl

/-! ### The transmit path -/

theorem txPhase_eq_staged_iff {s : State} : txPhase s = .staged ↔ s.txPending = true := by
  unfold txPhase
  by_cases hpend : s.txPending = true
  · simp [hpend]
  · by_cases hecho : s.echoRem = 0 <;> simp [hpend, hecho]

/-- With nothing pending `echo_rem` alone decides (R24). -/
theorem txPhase_of_notPending {s : State} (h : s.txPending = false) :
    txPhase s = if s.echoRem = 0 then .idle else .echo := by
  simp only [txPhase, h, Bool.false_eq_true, if_false]

theorem txPhase_eq_echo_iff {s : State} : txPhase s = .echo ↔ s.txPending = false ∧ 0 < s.echoRem := by
  cases hpend : s.txPending with
  | true => simp [txPhase_eq_staged_iff.2 hpend]
  | false => by_cases hecho : s.echoRem = 0 <;> simp [txPhase_of_notPending hpend, hecho, Nat.pos_iff_ne_zero]

/-- Settles O51: the results of STAGE (R75), TRYFLUSH (R76) and POLL's discard (R61), read as states of the path. -/
theorem transmitPathTransitions : Obligations.TransmitPathTransitions := by
  intro s h
  obtain ⟨hfires, hwaits⟩ := tryflushSendsWhenIdle s h
  refine ⟨fun src dst data hfit => ?_, fun src dst data hlong => ?_, ?_, fun hphase hq => ?_⟩
  · obtain ⟨m, he, -⟩ := exec_stage_of_fits src dst hfit
    exact ⟨_, he, rfl, rfl⟩
  · exact ⟨_, exec_stage_of_oversize src dst hlong, rfl⟩
  · by_cases hgo : s.txPending = true ∧ s.cfg.tIdle ≤ elapsed s.cfg s.now s.rxTs
    · obtain ⟨hpend, hidle⟩ := hgo
      have hstaged := txPhase_eq_staged_iff.2 hpend
      obtain ⟨bs, hlen, hbs⟩ := h.stagedFrame hpend
      have hsome : 0 < s.txLen := Nat.lt_of_lt_of_le (by decide) (h.txPendingStaged hpend)
      exact ⟨_, hfires hpend hidle bs hlen hbs, fun _ _ => ⟨txPhase_eq_echo_iff.2 ⟨rfl, hsome⟩, rfl⟩,
        fun _ hbusy => absurd hidle (Nat.not_le.2 hbusy), fun hne => absurd hstaged hne⟩
    · have hstay : s.txPending = false ∨ elapsed s.cfg s.now s.rxTs < s.cfg.tIdle :=
        (not_and_or.1 hgo).imp Bool.eq_false_of_not_eq_true Nat.lt_of_not_le
      exact ⟨_, hwaits hstay, fun hstaged hidle => absurd ⟨txPhase_eq_staged_iff.1 hstaged, hidle⟩ hgo,
        fun _ _ => rfl, fun _ => rfl⟩
  · obtain ⟨hnone, hecho⟩ := txPhase_eq_echo_iff.1 hphase
    obtain ⟨b, rest, hq⟩ := List.exists_cons_of_ne_nil hq
    have hlast : s.echoRem - 1 = 0 ↔ s.echoRem = 1 := by omega
    exact ⟨_, pollDiscardsEcho s b rest hq hecho hnone, Nat.sub_add_cancel hecho,
      Eq.trans (txPhase_of_notPending hnone) (if_congr hlast rfl rfl)⟩

end Sys2Proof.Machine
end

section
/-! PROOFS. Transmit (41_transmit.md), the whole machine: what a step appends to `Q_tx`, and that no run appends to it
within `T_IDLE` of an accepted byte (R79, R110). -/

namespace Sys2Proof.Machine

/-! ### Who appends to `Q_tx` -/

/-- The whole pending frame goes to `Q_tx` on an idle bus (R76, R79). -/
abbrev FrameSent (s t : State) : Prop :=
  s.txPending = true ∧ t.txPending = false ∧ s.cfg.tIdle ≤ elapsed s.cfg s.now s.rxTs ∧
    ∃ bs : List Byte, bs.length = s.txLen ∧ Holds .txBuf bs s ∧ t.qTx = s.qTx ++ bs

theorem frameSent_of_flushStep {s t : State} {fired : Bool} (h : flushStep s.rxTs s = .ok (t, fired)) :
    t.qTx = s.qTx ∨ FrameSent s t := by
  obtain ⟨-, rfl, -⟩ | ⟨-, hpend, hidle, bs, hread, rfl⟩ := flushStep_cases h
  · exact .inl rfl
  · obtain ⟨hlen, hbytes⟩ := readBytes_spec _ _ hread
    refine .inr ⟨hpend, rfl, hidle, bs, hlen, fun k hk => ?_, rfl⟩
    rw [← hbytes k (hlen ▸ hk), Nat.zero_add]

/-- A bus that is idle after POLL's byte step was so before: a byte ingested just now stops the flush unless `T_IDLE`
is 0 (R61 corner case 3). -/
theorem idle_of_pollByte {s t : State} {ev : BitVec 8} (h : pollByte s = .ok (t, ev))
    (hidle : t.cfg.tIdle ≤ elapsed t.cfg t.now t.rxTs) : s.cfg.tIdle ≤ elapsed s.cfg s.now s.rxTs := by
  obtain ⟨hcfg, hnow, -⟩ := sameEnvironment_of_pollByte h
  rw [hcfg, hnow] at hidle
  obtain hts | hts := rxTs_of_pollByte h
  · rwa [hts] at hidle
  · rw [hts, elapsed_self] at hidle
    exact hidle.trans (Nat.zero_le _)

/-- POLL's byte step leaves the staged frame and `Q_tx` alone, so its flush sends what was pending before (R61). -/
theorem frameSent_of_execPoll {s t : State} (h : execPoll s = .next t) : t.qTx = s.qTx ∨ FrameSent s t := by
  obtain ⟨s1, ev, s2, fired, hpoll, hflush, rfl⟩ := execPoll_cases h
  have hidle := idle_of_pollByte hpoll
  obtain ⟨m, len, pend, ts, echo, rfl, -⟩ := pollByte_frame hpoll
  obtain hsame | ⟨hpend, hdone, hidle1, bs, hlen, hbs, hq⟩ := frameSent_of_flushStep hflush
  · exact .inl hsame
  · exact .inr ⟨hpend, hdone, hidle hidle1, bs, hlen, hbs, hq⟩

/-- Of the operations only POLL and TRYFLUSH write `Q_tx` (R79). -/
theorem frameSent_of_exec {i : Instr} {s t : State} (h : exec i s = .next t) :
    t.qTx = s.qTx ∨ ((i = .poll ∨ i = .tryflush) ∧ FrameSent s t) := by
  obtain ⟨r, rfl⟩ | ⟨b, -, hi⟩ | ⟨hpoll, hp⟩ | ⟨-, ht⟩ | ⟨src, dst, data, -, hs⟩ | ⟨htry, hf⟩ := exec_cases h
  · exact .inl rfl
  · exact .inl (execIngest_frame hi).1.qTx
  · exact (frameSent_of_execPoll hp).imp_right fun hsent => ⟨.inl hpoll, hsent⟩
  · exact .inl (execTake_frame ht).1.qTx
  · obtain ⟨-, rfl⟩ | ⟨-, m, rfl⟩ := execStage_cases hs
    · exact .inl rfl
    · exact .inl rfl
  · obtain ⟨s', fired, hflush, rfl⟩ := execTryflush_cases hf
    exact (frameSent_of_flushStep hflush).imp_right fun hsent => ⟨.inr htry, hsent⟩

/-- Settles O37: a request appends as `frameSent_of_exec` says, and of the other steps none does. -/
theorem transmitOnlyWhenIdle : Obligations.TransmitOnlyWhenIdle := by
  intro s t h
  obtain ⟨-, rfl⟩ | ⟨w, rest, i, rest', hin, hfetch, hexec⟩ | ⟨w, rest, -, -, rfl⟩ | ⟨u, rest, -, rfl⟩ |
    ⟨b, rest, -, rfl⟩ | ⟨rest, hin, rfl⟩ | ⟨rest, -, rfl⟩ := step_cases h
  · exact .inl rfl
  · have hop : opField w = i.opcode := opField_of_fetch hfetch
    obtain hsame | ⟨hi, hpend, hdone, hidle, hsent⟩ := frameSent_of_exec hexec
    · exact .inl hsame
    · have hcode : opField w = 0x2 ∨ opField w = 0x7 := by
        obtain rfl | rfl := hi
        · exact .inl hop
        · exact .inr hop
      exact .inr (.inr ⟨hpend, hdone, hidle, ⟨w, rest, hin, hcode⟩, hsent⟩)
  · exact .inl rfl
  · exact .inl rfl
  · exact .inl rfl
  · exact .inr (.inl ⟨rfl, rest, hin⟩)
  · exact .inl rfl

/-! ### A quiet clock -/

/-- Data bytes on the port do not move the clock. -/
theorem clockQuiet_data_append {c : Config} {t0 e : Nat} (ds : List Byte) (rest : List Input) :
    ClockQuiet c t0 e (ds.map .data ++ rest) ↔ ClockQuiet c t0 e rest := by
  induction ds with
  | nil => exact .rfl
  | cons b ds ih => exact ih

/-- A request takes only data bytes from the port behind its word (R53), so the clock stays quiet behind it. -/
theorem ClockQuiet.of_fetch {c : Config} {t0 e : Nat} {w : CmdWord} {rest rest' : List Input} {i : Instr}
    (h : ClockQuiet c t0 e rest) (hfetch : fetchRequest w rest = .ok (i, rest')) : ClockQuiet c t0 e rest' := by
  rw [← dataRun_afterData rest, clockQuiet_data_append] at h
  unfold fetchRequest at hfetch
  split at hfetch
  · cases hfetch
  · cases hfetch
    exact (clockQuiet_data_append _ _).2 h

/-- Less than `T_IDLE` has passed since the moment `t0`, at or after which a byte was last accepted, and the inputs
to come keep the clock quiet: the invariant of R79. -/
structure QuietSince (t0 : Nat) (s : State) : Prop where
  consistent : Consistent s
  early : elapsed s.cfg s.now t0 < s.cfg.tIdle
  accepted : elapsed s.cfg s.rxTs t0 ≤ elapsed s.cfg s.now t0
  quiet : ClockQuiet s.cfg t0 (elapsed s.cfg s.now t0) s.inputs

/-- The idle test fails: `rx_ts` lies between `t0` and `now`. -/
theorem QuietSince.not_idle {t0 : Nat} {s : State} (h : QuietSince t0 s) :
    elapsed s.cfg s.now s.rxTs < s.cfg.tIdle := by
  rw [elapsed_between s.cfg h.accepted]
  exact (Nat.sub_le _ _).trans_lt h.early

/-- Each kind of step moves the clock forward at most, and not as far as `T_IDLE` after `t0`. -/
theorem QuietSince.clock_of_step {t0 : Nat} {s t : State} (h : QuietSince t0 s) (ht : step s = .next t) :
    elapsed s.cfg s.now t0 ≤ elapsed s.cfg t.now t0 ∧ elapsed s.cfg t.now t0 < s.cfg.tIdle ∧
      ClockQuiet s.cfg t0 (elapsed s.cfg t.now t0) t.inputs := by
  obtain ⟨-, hearly, -, hquiet⟩ := h
  obtain ⟨-, rfl⟩ | ⟨w, rest, i, rest', hin, hfetch, hexec⟩ | ⟨w, rest, hin, -, rfl⟩ | ⟨u, rest, hin, rfl⟩ |
    ⟨b, rest, hin, rfl⟩ | ⟨rest, hin, rfl⟩ | ⟨rest, hin, rfl⟩ := step_cases ht
  · exact ⟨le_rfl, hearly, hquiet⟩
  · obtain ⟨-, hnow, hinputs⟩ := sameEnvironment_of_exec hexec
    rw [hin] at hquiet
    rw [hnow, hinputs]
    exact ⟨le_rfl, hearly, ClockQuiet.of_fetch (rest := rest) hquiet hfetch⟩
  · rw [hin] at hquiet
    exact ⟨le_rfl, hearly, hquiet⟩
  · rw [hin] at hquiet
    rw [clockTo_now, elapsed_mod_now]
    exact hquiet
  · rw [hin] at hquiet
    exact ⟨le_rfl, hearly, hquiet⟩
  · rw [hin] at hquiet
    exact ⟨le_rfl, hearly, hquiet⟩
  · rw [hin] at hquiet
    exact ⟨le_rfl, hearly, hquiet⟩

/-- Every step keeps the invariant: `rx_ts` is only ever stamped with a moment not before `t0` (R14). -/
theorem QuietSince.step {t0 : Nat} {s t : State} (h : QuietSince t0 s) (ht : Machine.step s = .next t) :
    QuietSince t0 t := by
  obtain ⟨hcfg, -⟩ := parametersAndClockAreInputs s t ht
  obtain ⟨hforward, hearly, hquiet⟩ := h.clock_of_step ht
  have haccepted : elapsed s.cfg t.rxTs t0 ≤ elapsed s.cfg t.now t0 := by
    obtain hts | hts := timestampOnlyTakesNow s t h.consistent ht
    · exact hts ▸ h.accepted.trans hforward
    · exact hts ▸ hforward
  rw [← hcfg] at hearly haccepted hquiet
  exact ⟨stepKeepsConsistency s t h.consistent ht, hearly, haccepted, hquiet⟩

/-- A step on a bus that is not idle sends nothing: it removes the head of `Q_tx` at most (R79). -/
theorem QuietSince.qTx_suffix_of_step {t0 : Nat} {s t : State} (h : QuietSince t0 s)
    (ht : Machine.step s = .next t) : t.qTx <:+ s.qTx := by
  obtain hsame | ⟨htail, -⟩ | ⟨-, -, hidle, -⟩ := transmitOnlyWhenIdle s t ht
  · exact hsame ▸ List.suffix_rfl
  · exact htail ▸ List.tail_suffix _
  · exact absurd hidle (Nat.not_le.2 h.not_idle)

/-! ### Runs -/

/-- A run that answers a state took its first step and went on from there. -/
theorem exists_step_of_run {k : Nat} {s t : State} (h : Host.Core.run Sys2Proof.core (k + 1) s = .next t) :
    ∃ u, step s = .next u ∧ Host.Core.run Sys2Proof.core k u = .next t := by
  cases hs : step s with
  | next u => exact ⟨u, rfl, (run_succ_of_next hs).symm.trans h⟩
  | fault f => cases (run_succ_of_fault hs).symm.trans h
  | refused r => cases (run_succ_of_refused hs).symm.trans h

theorem QuietSince.qTx_suffix_of_run {t0 : Nat} (k : Nat) :
    ∀ {s t : State}, QuietSince t0 s → Host.Core.run Sys2Proof.core k s = .next t → t.qTx <:+ s.qTx := by
  induction k with
  | zero =>
    intro s t _ hrun
    cases hrun
    exact List.suffix_rfl
  | succ k ih =>
    intro s t h hrun
    obtain ⟨u, hstep, hrest⟩ := exists_step_of_run hrun
    exact (ih (h.step hstep) hrest).trans (h.qTx_suffix_of_step hstep)

/-- Settles O38: the moment of the byte just accepted starts the invariant. -/
theorem nothingSentWithinIdleTime : Obligations.NothingSentWithinIdleTime := by
  intro k s t h hts hidle hquiet hrun
  have hstart : elapsed s.cfg s.now s.now = 0 := elapsed_self _ _
  have hsince : QuietSince s.now s := ⟨h, hstart.symm ▸ hidle, hts ▸ le_rfl, hstart.symm ▸ hquiet⟩
  exact hsince.qTx_suffix_of_run k hrun

end Sys2Proof.Machine
end

section
/-! PROOFS. The message view (42_message_view.md): what MSRC, MLEN, MDST and MPAY read of the snapshot (R85 to R88), and
that only a TAKE and a reset write it (R22, R89). -/

namespace Sys2Proof.Machine

/-! ### The views of a held message -/

/-- A held message is a whole frame: its length byte counts it, and is 3 to 253 (R20, R26 I6). -/
theorem HoldsMessage.declared {bs : List Byte} {s : State} (h : HoldsMessage bs s) {len : Byte}
    (hlen : bs[1]? = some len) : bs.length = len.toNat + 2 ∧ 3 ≤ len.toNat ∧ len.toNat ≤ 253 := by
  obtain ⟨⟨hcomplete, -⟩, h255⟩ := h.consistent.message h.msgValid h.msgLen h.holds
  exact hcomplete.declared h255 hlen

/-- Settles O34: each header byte is a view of the held frame, and the length byte its declared length. -/
theorem viewsReadHeader : Obligations.ViewsReadHeader := by
  intro s h
  refine ⟨fun hnone => ⟨viewMessage_of_none _ hnone, viewMessage_of_none _ hnone, viewMessage_of_none _ hnone⟩,
    fun a len d rest hm hl hb => ?_⟩
  have hmsg : HoldsMessage (a :: len :: d :: rest) s := ⟨h, hm, hl, hb⟩
  obtain ⟨htotal, hmin, hmax⟩ := hmsg.declared rfl
  exact ⟨viewMessage_of_ok hm (hmsg.readByte rfl), viewMessage_of_ok hm (hmsg.readByte rfl),
    viewMessage_of_ok hm (hmsg.readByte rfl), hmin, hmax, hl.symm.trans htotal⟩

/-- Within the bound there is a byte to read: even the original bound ends at the checksum (R88). -/
theorem HoldsMessage.exec_mpay_within {bs : List Byte} {s : State} (h : HoldsMessage bs s) {i len : Byte}
    (hlen : bs[1]? = some len) (hin : payInBounds s.cfg.pbStrict len.toNat i.toNat = true) :
    ∃ v, bs[3 + i.toNat]? = some v ∧ exec (.mpay i) s = .next (respond v 0 s) := by
  obtain ⟨htotal, -⟩ := h.declared hlen
  have hlt : 3 + i.toNat < bs.length := htotal ▸ lt_of_payInBounds hin
  have hv : bs[3 + i.toNat]? = some bs[3 + i.toNat] := List.getElem?_eq_getElem hlt
  exact ⟨_, hv, h.exec_mpay hlen hin hv⟩

theorem HoldsMessage.exec_mpay_beyond {bs : List Byte} {s : State} (h : HoldsMessage bs s) {i len : Byte}
    (hlen : bs[1]? = some len) (hout : payInBounds s.cfg.pbStrict len.toNat i.toNat = false) :
    exec (.mpay i) s = .next (respond 0 0 s) :=
  viewMessage_of_ok h.msgValid (payloadByte_of_outOfBounds (h.readByte hlen) hout)

/-- Settles O35: a held frame declares at least 3, so neither `L - 2` nor `L - 3` is cut off at 0, and both are the
bound test of the model. -/
theorem mpayReadsWithinBound : Obligations.MpayReadsWithinBound := by
  intro s i h
  refine ⟨fun hnone => viewMessage_of_none _ hnone, fun bs len hm hl hb hlen => ?_⟩
  have hmsg : HoldsMessage bs s := ⟨h, hm, hl, hb⟩
  obtain ⟨-, hmin, -⟩ := hmsg.declared hlen
  refine ⟨fun hstrict hi => hmsg.exec_mpay_within hlen ?_, fun hstrict hi => hmsg.exec_mpay_beyond hlen ?_,
    fun hstrict hi => hmsg.exec_mpay_within hlen ?_, fun hstrict hi => hmsg.exec_mpay_beyond hlen ?_⟩
  · rw [hstrict]
    exact decide_eq_true (by omega)
  · rw [hstrict]
    exact decide_eq_false (by omega)
  · rw [hstrict]
    exact decide_eq_true (by omega)
  · rw [hstrict]
    exact decide_eq_false (by omega)

/-! ### Who writes the snapshot (R22, R89) -/

/-- The snapshot is as it was. -/
abbrev SameSnapshot (s t : State) : Prop :=
  t.msgLen = s.msgLen ∧ t.msgValid = s.msgValid ∧ ∀ k, t.byteAt .msgBuf k = s.byteAt .msgBuf k

/-- TAKE writes the snapshot in the one branch that reports a message (R64). -/
theorem sameSnapshot_of_execTake {s t : State} (h : execTake s = .next t) :
    SameSnapshot s t ∨ Performed 1 0x40 t := by
  obtain ⟨-, rfl⟩ | ⟨-, -, rfl⟩ | ⟨-, -, m, rfl⟩ := execTake_cases h
  · exact .inl ⟨rfl, rfl, fun _ => rfl⟩
  · exact .inl ⟨rfl, rfl, fun _ => rfl⟩
  · exact .inr rfl

/-- Of the operations only TAKE writes the snapshot (R89). -/
theorem sameSnapshot_of_exec {i : Instr} {s t : State} (h : exec i s = .next t) :
    SameSnapshot s t ∨ (i = .take ∧ Performed 1 0x40 t) := by
  cases i with
  | ingest b =>
    obtain ⟨-, hbuf, hlen, hvalid⟩ := execIngest_frame h
    exact .inl ⟨hlen, hvalid, State.byteAt_congr (sp := .msgBuf) hbuf⟩
  | poll =>
    obtain ⟨hbytes, hlen, hvalid, -⟩ := pollFrame s t h
    exact .inl ⟨hlen, hvalid, hbytes⟩
  | take => exact (sameSnapshot_of_execTake h).imp_right fun hperformed => ⟨rfl, hperformed⟩
  | _ =>
    obtain ⟨m, len, pend, echo, q, r, rfl⟩ := exec_sparesReceiveSide (by nofun) (by nofun) (by nofun) h
    exact .inl ⟨rfl, rfl, fun _ => rfl⟩

/-- Settles O36: a request writes the snapshot as `sameSnapshot_of_exec` says, of the other steps only reset does. -/
theorem onlyTakeReplacesSnapshot : Obligations.OnlyTakeReplacesSnapshot := by
  intro s t h
  obtain ⟨-, rfl⟩ | ⟨w, rest, i, rest', hin, hfetch, hexec⟩ | ⟨w, rest, -, -, rfl⟩ | ⟨u, rest, -, rfl⟩ |
    ⟨b, rest, -, rfl⟩ | ⟨rest, -, rfl⟩ | ⟨rest, hin, rfl⟩ := step_cases h
  · exact .inl ⟨rfl, rfl, fun _ => rfl⟩
  · have hop : opField w = i.opcode := opField_of_fetch hfetch
    obtain hsame | ⟨rfl, hperformed⟩ := sameSnapshot_of_exec hexec
    · exact .inl hsame
    · exact .inr (.inl ⟨w, rest, hin, hop, hperformed⟩)
  · exact .inl ⟨rfl, rfl, fun _ => rfl⟩
  · exact .inl ⟨rfl, rfl, fun _ => rfl⟩
  · exact .inl ⟨rfl, rfl, fun _ => rfl⟩
  · exact .inl ⟨rfl, rfl, fun _ => rfl⟩
  · exact .inr (.inr ⟨rest, hin⟩)

end Sys2Proof.Machine
end

section
/-! PROOFS. Refusals, events and the absence of faults (60_exceptions.md): nothing in this core is fatal (R95), what an
operation answers (R100, R101), and that no operation reads the response to the one before (R101). -/

namespace Sys2Proof.Machine

/-! ### Nothing is fatal (R95) -/

/-- Settles O15, by induction on the number of steps: each answers a state that meets the invariant again, or is one of
the two stops of the command port. -/
theorem runsNeverFault : Obligations.RunsNeverFault := by
  intro k
  induction k with
  | zero => exact fun s h => .inl ⟨s, rfl, h⟩
  | succ k ih =>
    intro s h
    obtain ⟨t, hnext⟩ | ⟨hstray, -⟩ | ⟨hincomplete, -⟩ := h.step_outcomes
    · rw [run_succ_of_next hnext]
      exact ih t (stepKeepsConsistency s t h hnext)
    · exact .inr (.inr (run_succ_of_refused hstray))
    · exact .inr (.inl (run_succ_of_refused hincomplete))

/-- Settles O14, operation by operation in `Consistent.exec_ok`. -/
theorem everyOperationCompletes : Obligations.EveryOperationCompletes :=
  fun i _ h => h.exec_ok i

/-! ### The events of a performed operation (R101) -/

/-- The events hold neither bit 7, which R101 leaves unused, nor the flush event. -/
abbrev WithoutFlush (ev : BitVec 8) : Prop := ev &&& 0x80#8 = 0 ∧ ev &&& 0x20#8 = 0

/-- A flush event stands alone, and only POLL and TRYFLUSH report one. -/
abbrev EventsOf (i : Instr) (ev : BitVec 8) : Prop :=
  WithoutFlush ev ∨ (i = .poll ∨ i = .tryflush) ∧ ev = evTxFlush

theorem withoutFlush_ingestEvents (s : State) : WithoutFlush (ingestEvents s) := by
  have hbits : ∀ full late : Bool,
      WithoutFlush (evIf full evRxOverflow ||| evIf late evRxTimeout ||| evRxByte) := by decide
  exact hbits s.rxFull (s.gapExpired && decide (0 < s.rxLen))

/-- Where POLL's byte step reports an event the flush step behind it waits: after a discard nothing is pending, after
an ingest `rx_ts` is the present moment (R61 corner case 3). -/
theorem pollByte_events {s t : State} {ev : BitVec 8} (hidle : 0 < s.cfg.tIdle) (h : pollByte s = .ok (t, ev)) :
    ev = 0 ∨ WithoutFlush ev ∧ flushStep t.rxTs t = .ok (t, false) := by
  obtain ⟨-, -, rfl⟩ | ⟨b, rest, -, -, hpend, rfl, rfl⟩ | ⟨b, rest, -, -, rfl, hb⟩ := pollByte_cases h
  · exact .inl rfl
  · exact .inr ⟨by decide, flushStep_of_notPending _ hpend⟩
  · obtain ⟨m, n, pend, hshape, -⟩ := ingestByte_cases hb
    have hbusy : t.idleSince t.rxTs = false := by
      subst hshape
      exact idleSince_now hidle
    exact .inr ⟨withoutFlush_ingestEvents s, flushStep_waits (by rw [hbusy, Bool.and_false])⟩

theorem eventsOf_flush {i : Instr} (hi : i = .poll ∨ i = .tryflush) (fired : Bool) :
    EventsOf i (evIf fired evTxFlush) := by
  cases fired with
  | false => exact .inl (by decide)
  | true => exact .inr ⟨hi, rfl⟩

theorem eventsOf_poll {s t u : State} {ev : BitVec 8} {fired : Bool} (hidle : 0 < s.cfg.tIdle)
    (hpoll : pollByte s = .ok (t, ev)) (hflush : flushStep t.rxTs t = .ok (u, fired)) :
    EventsOf .poll (ev ||| evIf fired evTxFlush) := by
  obtain rfl | ⟨hev, hwaits⟩ := pollByte_events hidle hpoll
  · have hevents : 0 ||| evIf fired evTxFlush = evIf fired evTxFlush := BitVec.zero_or
    rw [hevents]
    exact eventsOf_flush (.inl rfl) fired
  · cases hwaits.symm.trans hflush
    have hevents : ev ||| evIf false evTxFlush = ev := BitVec.or_zero
    rw [hevents]
    exact .inl hev

/-! ### What an operation answers (R51, R100) -/

/-- The operation stages a frame that does not fit (R75, R100). -/
abbrev OversizeStage (i : Instr) (s : State) : Prop :=
  ∃ src dst data, i = .stage src dst data ∧ s.cfg.txCap < data.length + 4

/-- The operations of the message view (R85 to R88). -/
abbrev IsView (i : Instr) : Prop := i = .msrc ∨ i = .mlen ∨ i = .mdst ∨ ∃ k, i = .mpay k

/-- All an operation can answer: one of the two refusals, with nothing changed, or that it was performed. The events
of a POLL take their form from `T_IDLE` above 0. -/
inductive Answer (i : Instr) (s t : State) : Prop
  | oversize (hcause : OversizeStage i s) (ht : t = refuse refStageLen s)
  | noMessage (hview : IsView i) (hnone : s.msgValid = false) (ht : t = refuse refNoMsg s)
  | performed (val : Byte) (ev : BitVec 8) (ht : Performed val ev t) (hev : 0 < s.cfg.tIdle → EventsOf i ev)

theorem Answer.withoutEvents {i : Instr} {s t : State} {val : Byte} (ht : Performed val 0 t) : Answer i s t :=
  .performed val 0 ht fun _ => .inl (by decide)

theorem answer_of_viewMessage {i : Instr} {view : Except Fault Byte} {s t : State} (hi : IsView i)
    (h : viewMessage view s = .next t) : Answer i s t := by
  obtain ⟨hnone, ht⟩ | ⟨-, v, -, rfl⟩ := viewMessage_cases h
  · exact .noMessage hi hnone ht
  · exact .withoutEvents rfl

theorem answer_of_exec {i : Instr} {s t : State} (h : exec i s = .next t) : Answer i s t := by
  cases i with
  | ingest b =>
    obtain ⟨s', -, rfl⟩ := execIngest_cases h
    exact .performed _ _ rfl fun _ => .inl (withoutFlush_ingestEvents s)
  | poll =>
    obtain ⟨s1, ev, s2, fired, hpoll, hflush, rfl⟩ := execPoll_cases h
    exact .performed _ _ rfl fun hidle => eventsOf_poll hidle hpoll hflush
  | hasframe =>
    obtain ⟨c, -, rfl⟩ := execHasframe_cases h
    exact .withoutEvents rfl
  | ckvalid =>
    obtain ⟨v, -, rfl⟩ := execCkvalid_cases h
    exact .withoutEvents rfl
  | take =>
    obtain ⟨-, rfl⟩ | ⟨-, -, rfl⟩ | ⟨-, -, m, rfl⟩ := execTake_cases h
    · exact .withoutEvents rfl
    · exact .performed _ _ rfl fun _ => .inl (by decide)
    · exact .performed _ _ rfl fun _ => .inl (by decide)
  | stage src dst data =>
    obtain ⟨hcap, ht⟩ | ⟨-, m, rfl⟩ := execStage_cases h
    · exact .oversize ⟨src, dst, data, rfl, hcap⟩ ht
    · exact .withoutEvents rfl
  | tryflush =>
    obtain ⟨s', fired, -, rfl⟩ := execTryflush_cases h
    exact .performed _ _ rfl fun _ => eventsOf_flush (.inr rfl) fired
  | txpend =>
    cases h
    exact .withoutEvents rfl
  | msrc => exact answer_of_viewMessage (.inl rfl) h
  | mlen => exact answer_of_viewMessage (.inr (.inl rfl)) h
  | mdst => exact answer_of_viewMessage (.inr (.inr (.inl rfl))) h
  | mpay k => exact answer_of_viewMessage (.inr (.inr (.inr ⟨k, rfl⟩))) h

/-- Settles O46: a refusal reports no event, a performed operation those of `EventsOf`. -/
theorem eventVectorForm : Obligations.EventVectorForm := by
  intro i s t hidle h
  cases answer_of_exec h with
  | oversize _ ht =>
    subst ht
    exact ⟨_, rfl, rfl, fun hflush => absurd rfl hflush⟩
  | noMessage _ _ ht =>
    subst ht
    exact ⟨_, rfl, rfl, fun hflush => absurd rfl hflush⟩
  | performed val ev ht hev =>
    refine ⟨_, ht, ?_⟩
    obtain ⟨hbit7, hbit5⟩ | ⟨hi, rfl⟩ := hev hidle
    · exact ⟨hbit7, fun hflush => absurd hbit5 hflush⟩
    · have hbit7 : evTxFlush &&& 0x80#8 = 0 := by decide
      exact ⟨hbit7, fun _ => ⟨hi, rfl⟩⟩

theorem exec_view_of_none {i : Instr} {s : State} (hview : IsView i) (hnone : s.msgValid = false) :
    exec i s = .next (refuse refNoMsg s) := by
  obtain rfl | rfl | rfl | ⟨k, rfl⟩ := hview
  all_goals exact viewMessage_of_none _ hnone

/-- Settles O45: each cause has its refusal, and an operation without a cause is performed. -/
theorem refusalsChangeNothing : Obligations.RefusalsChangeNothing := by
  intro i s t r h hr
  cases answer_of_exec h with
  | oversize hcause ht =>
    subst ht
    cases hr
    obtain ⟨src, dst, data, hi, hcap⟩ := hcause
    exact ⟨iff_of_true rfl (.inl ⟨src, dst, data, hi, hcap⟩),
      fun _ => ⟨rfl, rfl, rfl, .inl rfl, iff_of_true rfl ⟨src, dst, data, hi⟩⟩, nofun⟩
  | noMessage hview hnone ht =>
    subst ht
    cases hr
    have hnostage : ¬ ∃ src dst data, i = .stage src dst data := by
      rintro ⟨src, dst, data, rfl⟩
      obtain hi | hi | hi | ⟨k, hi⟩ := hview
      all_goals cases hi
    exact ⟨iff_of_true rfl (.inr ⟨hview, hnone⟩),
      fun _ => ⟨rfl, rfl, rfl, .inr rfl, iff_of_false (by decide) hnostage⟩, nofun⟩
  | performed val ev ht _ =>
    cases ht.symm.trans hr
    refine ⟨⟨nofun, fun hcause => ?_⟩, nofun, fun _ => rfl⟩
    obtain ⟨src, dst, data, rfl, hcap⟩ | ⟨hview, hnone⟩ := hcause
    · cases (exec_stage_of_oversize src dst hcap).symm.trans h
      cases ht
    · cases (exec_view_of_none hview hnone).symm.trans h
      cases ht

/-! ### The response port is not read (R101)

Each shared operation commutes with a change of the response port, faults included. -/

/-- The state with this at its response port. -/
abbrev State.withResponse (r : Option Response) (s : State) : State := { s with response := r }

theorem readByte_withResponse (sp : Space) (i : Nat) (s : State) (r : Option Response) :
    readByte sp i (s.withResponse r) = readByte sp i s := by
  cases sp <;> rfl

theorem readBytes_withResponse (sp : Space) (s : State) (r : Option Response) (n : Nat) :
    ∀ i, readBytes sp (s.withResponse r) i n = readBytes sp s i n := by
  induction n with
  | zero => exact fun _ => rfl
  | succ n ih =>
    intro i
    simp only [readBytes, readByte_withResponse, ih]

theorem writeByte_withResponse (sp : Space) (i : Nat) (v : Byte) (s : State) (r : Option Response) :
    writeByte sp i v (s.withResponse r) = (writeByte sp i v s).map (State.withResponse r) := by
  have hcap : (s.withResponse r).capacity sp = s.capacity sp := by cases sp <;> rfl
  simp only [writeByte, hcap]
  split
  · cases sp <;> rfl
  · rfl

theorem writeBytes_withResponse (sp : Space) (r : Option Response) (bs : List Byte) :
    ∀ i s, writeBytes sp i bs (s.withResponse r) = (writeBytes sp i bs s).map (State.withResponse r) := by
  induction bs with
  | nil => exact fun _ _ => rfl
  | cons b bs ih =>
    intro i s
    simp only [writeBytes, writeByte_withResponse]
    cases writeByte sp i b s with
    | error f => rfl
    | ok s' => exact ih (i + 1) s'

theorem frameValid_withResponse (s : State) (r : Option Response) : frameValid (s.withResponse r) = frameValid s :=
  frameValid_of_eq rfl rfl rfl

theorem clearIfStale_withResponse (s : State) (r : Option Response) :
    clearIfStale (s.withResponse r) = (clearIfStale s).withResponse r :=
  (apply_ite (State.withResponse r) (s.rxFull || s.gapExpired) (clearRx s) s).symm

theorem appendRx_withResponse (b : Byte) (s : State) (r : Option Response) :
    appendRx b (s.withResponse r) = (appendRx b s).map (State.withResponse r) := by
  simp only [appendRx, writeByte_withResponse]
  cases writeByte .rxBuf s.rxLen b s <;> rfl

theorem ingestByte_withResponse (b : Byte) (s : State) (r : Option Response) :
    ingestByte b (s.withResponse r) = (ingestByte b s).map (State.withResponse r) := by
  simp only [ingestByte, clearIfStale_withResponse, appendRx_withResponse]
  cases appendRx b (clearIfStale s) with
  | error f => rfl
  | ok s' =>
    simp only [Except.map, frameValid_withResponse]
    cases frameValid s' <;> rfl

/-- POLL's byte step outside the echo window is the INGEST, its faults included (R61). -/
theorem pollByte_of_window {s : State} {b : Byte} {rest : List Byte} (hq : s.qRx = b :: rest)
    (hwindow : s.echoRem = 0 ∨ s.txPending = true) :
    pollByte s = (ingestByte b { s with qRx := rest }).map fun t => (t, ingestEvents s) := by
  have hkeep : (s.echoActive && !s.txPending) = false := by
    obtain hecho | hpend := hwindow
    · simp [State.echoActive, hecho]
    · simp [hpend]
  simp only [pollByte, hq, hkeep, Bool.false_eq_true, if_false]
  cases ingestByte b { s with qRx := rest } <;> rfl

theorem pollByte_withResponse (s : State) (r : Option Response) :
    pollByte (s.withResponse r) = (pollByte s).map (Prod.map (State.withResponse r) id) := by
  cases hq : s.qRx with
  | nil =>
    rw [pollByte_of_empty hq, pollByte_of_empty (s := s.withResponse r) hq]
    rfl
  | cons b rest =>
    by_cases hdrop : 0 < s.echoRem ∧ s.txPending = false
    · obtain ⟨hecho, hidle⟩ := hdrop
      rw [pollByte_of_echo hq hecho hidle, pollByte_of_echo (s := s.withResponse r) hq hecho hidle]
      rfl
    · have hwindow : s.echoRem = 0 ∨ s.txPending = true :=
        (Nat.eq_zero_or_pos _).imp_right fun hecho => Bool.eq_true_of_not_eq_false fun hidle => hdrop ⟨hecho, hidle⟩
      have hingest := ingestByte_withResponse b { s with qRx := rest } r
      rw [pollByte_of_window hq hwindow, pollByte_of_window (s := s.withResponse r) hq hwindow, hingest]
      cases ingestByte b { s with qRx := rest } <;> rfl

theorem flushStep_withResponse (tLast : Nat) (s : State) (r : Option Response) :
    flushStep tLast (s.withResponse r) = (flushStep tLast s).map (Prod.map (State.withResponse r) id) := by
  cases hf : s.txPending && s.idleSince tLast with
  | false =>
    rw [flushStep_waits (s := s) hf, flushStep_waits (s := s.withResponse r) hf]
    rfl
  | true =>
    have hf' : ((s.withResponse r).txPending && (s.withResponse r).idleSince tLast) = true := hf
    rw [flushStep, flushStep, if_pos hf, if_pos hf', readBytes_withResponse]
    cases readBytes .txBuf s 0 s.txLen <;> rfl

theorem stageFrame_withResponse (src dst : Byte) (data : List Byte) (s : State) (r : Option Response) :
    stageFrame src dst data (s.withResponse r) = (stageFrame src dst data s).map (State.withResponse r) := by
  simp only [stageFrame, writeBytes_withResponse]
  cases writeBytes .txBuf 0 (buildFrame src dst data) s <;> rfl

theorem copyMessage_withResponse (s : State) (r : Option Response) :
    copyMessage (s.withResponse r) = (copyMessage s).map (State.withResponse r) := by
  simp only [copyMessage, readBytes_withResponse]
  cases readBytes .rxBuf s 0 s.rxLen with
  | error f => rfl
  | ok bs =>
    simp only [writeBytes_withResponse]
    cases writeBytes .msgBuf 0 bs s <;> rfl

theorem execTake_withResponse (s : State) (r : Option Response) : execTake (s.withResponse r) = execTake s := by
  have hcomplete : frameComplete (s.withResponse r) = frameComplete s := rfl
  have hxor : xorOk (s.withResponse r) = xorOk s := by
    simp only [xorOk, readByte_withResponse, readBytes_withResponse]
  simp only [execTake, hcomplete, hxor, copyMessage_withResponse]
  cases frameComplete s with
  | error f => rfl
  | ok complete =>
    cases complete with
    | false => rfl
    | true =>
      cases xorOk s with
      | error f => rfl
      | ok valid =>
        cases valid with
        | false => rfl
        | true => cases copyMessage s <;> rfl

theorem execPoll_withResponse (s : State) (r : Option Response) : execPoll (s.withResponse r) = execPoll s := by
  simp only [execPoll, pollByte_withResponse]
  cases pollByte s with
  | error f => rfl
  | ok p =>
    obtain ⟨s1, ev⟩ := p
    simp only [Except.map, Prod.map, flushStep_withResponse]
    cases flushStep s1.rxTs s1 <;> rfl

/-- Settles O47: what the operations share commutes with a change of the response port, and each overwrites it at the
end. -/
theorem earlierResponseDoesNotMatter : Obligations.EarlierResponseDoesNotMatter := by
  intro i s r
  cases i with
  | ingest b =>
    show execIngest b (s.withResponse r) = execIngest b s
    simp only [execIngest, ingestByte_withResponse]
    cases ingestByte b s <;> rfl
  | poll => exact execPoll_withResponse s r
  | take => exact execTake_withResponse s r
  | stage src dst data =>
    show execStage src dst data (s.withResponse r) = execStage src dst data s
    simp only [execStage, stageFrame_withResponse]
    cases stageFrame src dst data s <;> rfl
  | tryflush =>
    show execTryflush (s.withResponse r) = execTryflush s
    simp only [execTryflush, flushStep_withResponse]
    cases flushStep s.rxTs s <;> rfl
  | mpay k => exact PureQuery.exec_withResponse (k := k) (by simp [PureQuery]) s r
  | _ => exact PureQuery.exec_withResponse (k := 0) (by simp [PureQuery]) s r

end Sys2Proof.Machine
end

section
/-! PROOFS. Reset and hazards (70_reset_and_hazards.md): what reset leaves (R115, R116), the first operations after it
(R117), and the frame that an overrun loses (R121). -/

namespace Sys2Proof.Machine

/-! ### Overrun -/

/-- Settles O20: the bytes in time all go behind the frame, and that longer run is not complete. -/
theorem overrunLosesFrameForGood : Obligations.OverrunLosesFrameForGood := by
  intro s bs more h hl hb hcomplete hne hintime hroom
  obtain ⟨t, ht, hacc⟩ := accumulated_of_ingestAt more ⟨h, hl, hb⟩ hintime (hl ▸ hroom)
  have hlost : ¬ CompleteRun (bs ++ more.map Prod.snd) :=
    not_completeRun_append hcomplete (mt List.map_eq_nil_iff.1 hne)
  refine ⟨t, ht, ?_, ?_, ?_⟩
  · rw [← hacc.rxLen, List.length_append, List.length_map, hl]
  · exact Bool.eq_false_of_not_eq_true fun hpend => hlost (hacc.rxPending_iff.1 hpend).1
  · rw [exec_hasframe_of_holds hacc.consistent.cfgLegal hacc.rxLen hacc.holds, decide_eq_false hlost]
    rfl

/-! ### What reset leaves -/

/-- An empty buffer is the empty state of the receive machine, whatever the parameters (R24). -/
theorem rxPhase_of_empty {s : State} (hempty : s.rxLen = 0) : rxPhase s = .ok .empty := by
  have hcomplete : frameComplete s = .ok false := by
    rw [frameComplete, hempty, if_neg (Nat.not_lt_zero _)]
  simp only [rxPhase, hcomplete, hempty, if_true]

@[simp] theorem resetAt_byteAt (c : Config) (now0 : Nat) (sp : Space) (k : Nat) :
    (State.resetAt c now0).byteAt sp k = none := by cases sp <;> rfl

/-- Settles O1: the registers as `State.resetAt` writes them, and what is derived from them. -/
theorem resetLeavesSpecifiedState : Obligations.ResetLeavesSpecifiedState :=
  fun c now0 hnow => ⟨rfl, rfl, Nat.mod_eq_of_lt hnow, rfl, rfl, rfl, rfl, rfl, resetAt_byteAt c now0,
    rxPhase_of_empty rfl, txPhase_of_notPending rfl, rfl, rfl, rfl⟩

/-- Settles O2: the step is `hardwareReset`, and a clock reading of `TSW` bits stamps `rx_ts` as it is. -/
theorem resetStepSparesTransportAndClock : Obligations.ResetStepSparesTransportAndClock :=
  fun _ _ hin hnow => ⟨_, step_of_reset hin, rfl, rfl, Nat.mod_eq_of_lt hnow, rfl, rfl, rfl, rfl, rfl,
    hardwareReset_byteAt _, rfl, rfl, rfl, rfl, rfl, rfl⟩

/-! ### The first operations after reset -/

/-- Nothing is accumulated, staged, expected as an echo or held as a snapshot. The clock and the transport's queues are
left open: R116 says that reset does not touch them. -/
structure AtRest (s : State) : Prop where
  consistent : Consistent s
  rxLen : s.rxLen = 0
  txPending : s.txPending = false
  echoRem : s.echoRem = 0
  msgValid : s.msgValid = false

theorem atRest_resetAt {c : Config} (hc : c.legal) (now0 t0 : Nat) (q q' : List Byte) :
    AtRest { clockTo t0 (State.resetAt c now0) with qRx := q, qTx := q' } :=
  ⟨((Consistent.resetAt hc now0).clockTo t0).withPorts q q' none [], rfl, rfl, rfl, rfl⟩

/-- With nothing accumulated there is nothing to discard: an INGEST reports the byte alone (R60, R101). -/
theorem ingestEvents_of_empty {s : State} (hempty : s.rxLen = 0) : ingestEvents s = evRxByte := by
  simp [ingestEvents, State.rxFull, hempty, evIf]

/-- The first byte of a run stands at index 0 and completes no frame, whenever it comes (R60). -/
theorem ingestByte_of_empty {s : State} (b : Byte) (h : Consistent s) (hempty : s.rxLen = 0) :
    ∃ m, ingestByte b s = .ok { s with rxBuf := m, rxLen := 1, rxTs := s.now, rxPending := false } ∧
      Memory.get m 0 = some b := by
  have hnone : Accumulated [] s := .of_empty h hempty
  obtain ⟨m, he, hget, -⟩ := ingestByte_spec b h.cfgLegal hnone.rxLen h.rxLenLe hnone.holds
  have hrun : runBefore s [] = [] := ite_self _
  have hinvalid : ¬ ValidRun ([] ++ [b]) := fun hv => not_completeRun_of_short (by simp) hv.1
  rw [hrun, decide_eq_false hinvalid] at he
  rw [hrun] at hget
  exact ⟨m, he, hget 0⟩

/-- HASFRAME, CKVALID and TAKE find no frame received, TXPEND and TRYFLUSH none staged (R62 to R64, R76, R77). -/
theorem AtRest.exec_findsNothing {s : State} (h : AtRest s) :
    exec .hasframe s = .next (respond 0 0 s) ∧ exec .ckvalid s = .next (respond 0 0 s) ∧
    exec .take s = .next (respond 0 0 s) ∧ exec .txpend s = .next (respond 0 0 s) ∧
    exec .tryflush s = .next (respond 0 0 s) := by
  have hcfg := h.consistent.cfgLegal
  have hnone : Accumulated [] s := .of_empty h.consistent h.rxLen
  have hincomplete : ¬ CompleteRun [] := not_completeRun_of_short (Nat.zero_le _)
  have htxpend : exec .txpend s = .next (respond (bitByte s.txPending) 0 s) := txpendReportsFlag s
  rw [h.txPending] at htxpend
  exact ⟨exec_hasframe_of_holds hcfg hnone.rxLen hnone.holds,
    exec_ckvalid_of_holds hcfg hnone.rxLen h.consistent.rxLenLe hnone.holds,
    exec_take_of_incomplete hcfg hnone.rxLen hnone.holds hincomplete, htxpend,
    exec_tryflush_of_ok (flushStep_of_notPending _ h.txPending)⟩

/-- INGEST starts a run (R60). -/
theorem AtRest.exec_ingest {s : State} (h : AtRest s) (b : Byte) :
    ∃ t, exec (.ingest b) s = .next t ∧ t.rxLen = 1 ∧ t.byteAt .rxBuf 0 = some b ∧ t.rxTs = s.now ∧
      Performed 0 0x10 t := by
  obtain ⟨m, he, hbyte⟩ := ingestByte_of_empty b h.consistent h.rxLen
  have hexec := exec_ingest_of_ok he
  rw [ingestEvents_of_empty h.rxLen] at hexec
  exact ⟨_, hexec, rfl, hbyte, rfl, rfl⟩

/-- POLL with a byte waiting ingests it: with no echo expected nothing is dropped, with nothing pending nothing is
flushed (R61). -/
theorem AtRest.exec_poll {s : State} (h : AtRest s) {b : Byte} {rest : List Byte} (hq : s.qRx = b :: rest) :
    ∃ t, exec .poll s = .next t ∧ t.qRx = rest ∧ t.qTx = s.qTx ∧ t.rxLen = 1 ∧ t.byteAt .rxBuf 0 = some b ∧
      t.rxTs = s.now ∧ Performed 0 0x10 t := by
  obtain ⟨m, he, hbyte⟩ := ingestByte_of_empty b (h.consistent.withPorts rest s.qTx s.response s.inputs) h.rxLen
  have hpoll := pollByte_of_ingest hq (.inl h.echoRem) he
  rw [ingestEvents_of_empty h.rxLen] at hpoll
  exact ⟨_, exec_poll_of_ok hpoll (flushStep_of_notPending _ h.txPending), rfl, rfl, rfl, hbyte, rfl, rfl⟩

/-- POLL with no byte waiting does nothing (R61). -/
theorem AtRest.exec_poll_of_empty {s : State} (h : AtRest s) (hq : s.qRx = []) :
    exec .poll s = .next (respond 0 0 s) := by
  have hpend : s.rxPending = false := by
    have hnone : Accumulated [] s := .of_empty h.consistent h.rxLen
    exact Bool.eq_false_of_not_eq_true fun hp => not_completeRun_of_short (Nat.zero_le _) (hnone.rxPending_iff.1 hp).1
  have hexec := exec_poll_of_ok (pollByte_of_empty hq) (flushStep_of_notPending _ h.txPending)
  rw [hpend] at hexec
  exact hexec

/-- Settles O4: the state after reset is at rest, and what each operation does there. -/
theorem firstOperationsAfterReset : Obligations.FirstOperationsAfterReset := by
  intro c now0 t0 q q' s hc hs
  have h : AtRest s := hs ▸ atRest_resetAt hc now0 t0 q q'
  have hcfg : s.cfg = c := hs ▸ rfl
  have hqRx : s.qRx = q := hs ▸ rfl
  have hqTx : s.qTx = q' := hs ▸ rfl
  obtain ⟨hhasframe, hckvalid, htake, htxpend, htryflush⟩ := h.exec_findsNothing
  have hview : ∀ {i : Instr}, IsView i → exec i s = .next (refuse refNoMsg s) :=
    fun hi => exec_view_of_none hi h.msgValid
  refine ⟨hhasframe, hckvalid, htake, htxpend, htryflush, hview (.inl rfl), hview (.inr (.inl rfl)),
    hview (.inr (.inr (.inl rfl))), fun k => hview (.inr (.inr (.inr ⟨k, rfl⟩))), h.exec_ingest,
    fun src dst data hfit => ?_, fun hq => h.exec_poll_of_empty (hqRx.trans hq), fun b rest hq => ?_⟩
  · obtain ⟨m, he, hget, -⟩ := exec_stage_of_fits src dst (hcfg ▸ hfit)
    exact ⟨_, he, rfl, rfl, fun k hk => (hget k).trans (if_pos (buildFrame_length src dst data ▸ hk)), rfl⟩
  · obtain ⟨t, he, hrest, hsent, hstored⟩ := h.exec_poll (hqRx.trans hq)
    exact ⟨t, he, hrest, hsent.trans hqTx, hstored⟩

end Sys2Proof.Machine
end
